-- ==== Sys2Proof/Word.lean ====
section
/-! DEFINITION. The two word types of the block (R6): a byte of 8 bits and a host register of 32 bits. -/

namespace Sys2Proof

/-- A byte (R6). -/
abbrev Byte := BitVec 8

/-- A host register, a command word, a chunk length, a CRC or a packed tag: 32 bits (R6). -/
abbrev Word := BitVec 32

end Sys2Proof
end

