-- ==== Sys2Proof/Config.lean ====
section
/-! DEFINITION. What an implementation of the block fixes and the spec leaves open: the three buffer capacities
(R5, R36), the base address on the host bus (R53), and which held accesses, of those that start no
command, outlast a reset (log 19). -/

namespace Sys2Proof

/-- The three buffer capacities in bytes: IBUF_SIZE, DBUF_SIZE and OBUF_SIZE (R5). -/
structure Caps where
  ibuf : Nat
  dbuf : Nat
  obuf : Nat
  deriving DecidableEq, Repr, Inhabited

/-- The constraints R5 puts on the capacities. -/
abbrev Caps.Legal (c : Caps) : Prop :=
  12 ≤ c.ibuf ∧ c.ibuf - 12 ≤ c.dbuf ∧ c.dbuf + 12 ≤ c.obuf ∧ c.obuf ≤ 2 ^ 24

/-- The smallest capacities R5 allows. -/
def Caps.least : Caps := ⟨12, 0, 12⟩

/-- The capacities this implementation chose: an open parameter, so it has no body (R5; log 1). -/
opaque Config.chosenCaps : Caps

/-- IBUF_SIZE, DBUF_SIZE and OBUF_SIZE: the chosen capacities where they meet R5, which is all R5 allows them to be
(log 1, DESIGN CHOICE: the other case stands for no implementation). -/
def Config.caps : Caps := if Config.chosenCaps.Legal then Config.chosenCaps else Caps.least

/-- CCB_BASE, the base of the host window on the host bus: an open parameter that no rule reads (R53; log 10). -/
opaque Config.ccbBase : Nat

/-- The address on the host bus of a window offset (R50, R53). -/
def Config.busAddress (off : Nat) : Nat := Config.ccbBase + off

/-- Whether an access that starts no command, made before reset and still held when reset is applied, keeps its place
at the port, by its offset, its width and, for a write, its value: the spec does not say, so this is a free value with
no body (R61, R200; log 19). -/
opaque Config.heldAccessOutlastsReset (off : Word) (width : Nat) (written : Option Word) : Bool

end Sys2Proof
end

