-- ==== Sys2Proof/Machine/State.lean ====
section
/-! DEFINITION. The state of the block (10_state.md): its registers and fields, its three buffers, the command in
flight, the reset input, and the host port's queue and answer. Plain data throughout. -/

namespace Sys2Proof.Machine

/-- The values of STATUS.ERRCODE (R181). Codes 10 to 15 are never produced and have no constructor (U9). -/
inductive ErrCode where
  | success
  | invalidBytes
  | invalidLength
  | invalidCharacter
  | invalidChunkType
  | unexpectedEof
  | invalidChecksum
  | bufferOverflow
  | rangeError
  | illegalCommand
  deriving DecidableEq, Repr

/-- The values of STATUS.CMP (R24): TAG equal to, below or above TAG_B. 0b11 is never produced (U10). -/
inductive Cmp where
  | equal
  | below
  | above
  deriving DecidableEq, Repr

/-- The host-visible registers, in the order of their offsets (R22). -/
inductive Reg where
  | cmd | status | tag | tagB | tagflags | length | crc | crcRx | crcCalc | crcState | crcValue
  | inLen | inPos | outLen | ibufCap | dbufCap | obufCap
  deriving DecidableEq, Repr

/-- The three byte arrays (R38). -/
inductive Buf where
  | ibuf | dbuf | obuf
  deriving DecidableEq, Repr

/-- One buffer's contents: the bytes that hold a value, by index, indices strictly rising. An index that is not listed
holds no value (R39; log 2). -/
abbrev Memory := List Host.Cell

/-- A host access (R9): MemRead(off, width) or MemWrite(off, width, value), the width in bytes, the offset relative to
the base of the window (R50). A write of one byte moves the low byte of `value` (log 9). -/
inductive Access where
  | read (off : Word) (width : Nat)
  | write (off : Word) (width : Nat) (value : Word)
  deriving DecidableEq, Repr

/-- An access waiting at the host port. `delay` matters only where the access starts a command: the number of host
turns that pass before the engine runs it (CMD_LATENCY, finite and of no known value: R180, R206; log 3). -/
structure Request where
  access : Access
  delay : Nat
  deriving DecidableEq, Repr

/-- A command that has started and not yet run: its word and the host turns left (R180; log 3). -/
structure InFlight where
  word : Word
  delay : Nat
  deriving DecidableEq, Repr

/-- What the bus answers to a completed access (R56 to R58; log 4). -/
inductive Reply where
  | word (v : Word)
  | byte (b : Byte)
  | written
  deriving DecidableEq, Repr

/-- The whole state. Derived registers (TAGFLAGS, CRC_VALUE, STATUS as a word) are computed, not stored. -/
structure State where
  /-- STATUS.ERR_STICKY (R24). -/
  errSticky : Bool
  /-- STATUS.CHUNK_VALID (R24, R37). -/
  chunkValid : Bool
  /-- STATUS.ERRCODE (R24, R181). -/
  errCode : ErrCode
  /-- STATUS.CMP (R24, R127). -/
  cmp : Cmp
  /-- TAG (R25). -/
  tag : Word
  /-- TAG_B (R26). -/
  tagB : Word
  /-- LENGTH (R28). -/
  length : Word
  /-- CRC (R29). -/
  crc : Word
  /-- CRC_RX (R30). -/
  crcRx : Word
  /-- CRC_CALC (R30). -/
  crcCalc : Word
  /-- CRC_STATE (R31). -/
  crcState : Word
  /-- IN_LEN (R33). -/
  inLen : Word
  /-- IN_POS (R34). -/
  inPos : Word
  /-- OUT_LEN (R35). -/
  outLen : Word
  /-- IBUF_CAP, DBUF_CAP and OBUF_CAP (R36). -/
  caps : Caps
  /-- IBUF (R38). -/
  ibuf : Memory
  /-- DBUF (R38). -/
  dbuf : Memory
  /-- OBUF (R38). -/
  obuf : Memory
  /-- The command in progress; STATUS.BUSY = 1 iff there is one (R24, R180). -/
  inflight : Option InFlight
  /-- Whether the reset input is applied (R200; log 7). -/
  resetLine : Bool
  /-- The host accesses made while reset was released and not yet completed, oldest first (R61, R64; log 4). -/
  port : List Request
  /-- What the bus answered to the access completed last (log 4). -/
  reply : Option Reply
  /-- The first host access made while reset was applied, if any: the next step refuses it (R201; log 7). -/
  madeInReset : Option Access
  deriving DecidableEq, Repr

/-- Why the machine stops. -/
inductive Fault where
  /-- A bus error: an access of a wrong width, a misaligned register access or an access to an unmapped offset, named
  whole (R54, R55, R185). Raised by the host port. Safe: the hardware answers it on the bus and goes on (log 5). -/
  | busError (access : Access)
  /-- A read of a buffer byte that holds no value, by the host or by a command (R39, R58). Safe: the hardware reads an
  unspecified byte (log 2). -/
  | unwrittenByte (buf : Buf) (index : Nat)
  deriving DecidableEq, Repr

/-- What the model gives no meaning. -/
inductive Refusal where
  /-- A command with no meaning yet. Raised by no arm of `exec`. Safe. -/
  | notModelled (mnemonic : String)
  /-- A host access made while reset is applied: what it does is unspecified (R201, U3). Raised by the step after the
  host made it, whatever the reset input is by then. Safe. -/
  | accessDuringReset (access : Access)
  deriving DecidableEq, Repr

/-- The state after reset of a block with the given capacities (R42, R200). -/
def State.resetWith (caps : Caps) : State where
  errSticky := false
  chunkValid := false
  errCode := .success
  cmp := .equal
  tag := 0
  tagB := 0
  length := 0
  crc := 0
  crcRx := 0
  crcCalc := 0
  crcState := 0xFFFF_FFFF
  inLen := 0
  inPos := 0
  outLen := 0
  caps := caps
  ibuf := []
  dbuf := []
  obuf := []
  inflight := none
  resetLine := false
  port := []
  reply := none
  madeInReset := none

/-- The machine right after reset (R42), with this implementation's capacities (log 1). -/
def State.reset : State := State.resetWith Config.caps

end Sys2Proof.Machine
end

