-- ==== Sys2Proof/Machine/Operands.lean ====
section
/-! DEFINITION. Operand forms: bytes of a tag, big-endian words (R9, R25, R59), the register and window offsets (R22,
R52), and the capacity of a buffer (R5). ARG reaches a command as its byte (Decode.lean, R71). -/

namespace Sys2Proof.Machine

/-- be32: the word whose most significant byte is the first (R9). -/
def be32 (b0 b1 b2 b3 : Byte) : Word := b0 ++ b1 ++ b2 ++ b3

/-- tagbyte(TAG, 0): bits 31:24 (R25). -/
def tagByte0 (t : Word) : Byte := t.extractLsb' 24 8

/-- tagbyte(TAG, 1): bits 23:16 (R25). -/
def tagByte1 (t : Word) : Byte := t.extractLsb' 16 8

/-- tagbyte(TAG, 2): bits 15:8 (R25). -/
def tagByte2 (t : Word) : Byte := t.extractLsb' 8 8

/-- tagbyte(TAG, 3): bits 7:0 (R25). -/
def tagByte3 (t : Word) : Byte := t.extractLsb' 0 8

/-- be32bytes: the four bytes of a word, most significant first (R9). For TAG, the tag in wire order (R25, R129). -/
def be32bytes (v : Word) : List Byte := [tagByte0 v, tagByte1 v, tagByte2 v, tagByte3 v]

/-- A register's offset in the register window (R22). -/
def Reg.offset : Reg → Word
  | .cmd => 0x00
  | .status => 0x04
  | .tag => 0x08
  | .tagB => 0x0C
  | .tagflags => 0x10
  | .length => 0x14
  | .crc => 0x18
  | .crcRx => 0x1C
  | .crcCalc => 0x20
  | .crcState => 0x24
  | .crcValue => 0x28
  | .inLen => 0x2C
  | .inPos => 0x30
  | .outLen => 0x34
  | .ibufCap => 0x38
  | .dbufCap => 0x3C
  | .obufCap => 0x40

/-- Every register (R22). -/
def allRegs : List Reg :=
  [.cmd, .status, .tag, .tagB, .tagflags, .length, .crc, .crcRx, .crcCalc, .crcState, .crcValue,
    .inLen, .inPos, .outLen, .ibufCap, .dbufCap, .obufCap]

/-- The register at an offset of the register window, if one is mapped there (R51). Misaligned offsets hold none. -/
def regAt (off : Word) : Option Reg := allRegs.find? (·.offset == off)

/-- The size of a buffer (R5, R38). -/
def bufSize (c : Caps) : Buf → Nat
  | .ibuf => c.ibuf
  | .dbuf => c.dbuf
  | .obuf => c.obuf

/-- The host offset where a buffer's window begins (R52). -/
def Buf.window : Buf → Nat
  | .ibuf => 0x0100_0000
  | .dbuf => 0x0200_0000
  | .obuf => 0x0300_0000

/-- The bytes in one buffer window: 16 MiB (R52). -/
def windowSize : Nat := 0x0100_0000

/-- The size of the register window (R51). -/
def regWindowSize : Nat := 0x100

/-- The buffer whose window an offset lies in, and the index there (R52). -/
def windowAt (off : Nat) : Option (Buf × Nat) :=
  [Buf.ibuf, .dbuf, .obuf].findSome? fun b =>
    if b.window ≤ off ∧ off < b.window + windowSize then some (b, off - b.window) else none

end Sys2Proof.Machine
end

