-- ==== Sys2Proof/Machine/Crc32.lean ====
section
/-! DEFINITION. The CRC-32 function (R100 to R102). The parameters R100 marks as general knowledge are the spec's
(log 15). -/

namespace Sys2Proof.Machine

/-- The polynomial in reflected form (R100). -/
def crcPoly : Word := 0xEDB8_8320

/-- The initial value, and the value of the final xor (R100). -/
def crcOnes : Word := 0xFFFF_FFFF

/-- One round of the update: a logical shift right, and the polynomial where bit 0 was 1 (R101). -/
def crcBit (c : Word) : Word := if c.getLsbD 0 then (c >>> 1) ^^^ crcPoly else c >>> 1

/-- crc_step: the update for one byte, eight rounds (R101). -/
def crcStep (c : Word) (b : Byte) : Word :=
  crcBit (crcBit (crcBit (crcBit (crcBit (crcBit (crcBit (crcBit (c ^^^ b.setWidth 32))))))))

/-- crc_state: the update for a sequence, first byte first (R102). -/
def crcState (c : Word) (s : List Byte) : Word := s.foldl crcStep c

/-- crc32 of a byte sequence (R102). -/
def crc32 (s : List Byte) : Word := crcState crcOnes s ^^^ crcOnes

/-- CRC_VALUE as a function of CRC_STATE (R32). -/
def crcValueOf (c : Word) : Word := c ^^^ crcOnes

/-- The crc of a chunk: over its four type bytes and its data, and nothing else (R141). -/
def chunkCrc (tag : Word) (data : List Byte) : Word := crc32 (be32bytes tag ++ data)

/-- The bytes of a serialized chunk of L data bytes (R140, R160). -/
def serialize (tag : Word) (len : Word) (data : List Byte) : List Byte :=
  be32bytes len ++ be32bytes tag ++ data ++ be32bytes (chunkCrc tag data)

end Sys2Proof.Machine
end

