-- ==== Sys2Proof/Machine/Flags.lean ====
section
/-! DEFINITION. The flags (R41): the tag predicates and TAGFLAGS (R27, R120 to R125), the numbering of ERRCODE and CMP
and the STATUS word (R24, R181), and the comparison TAG_CMP reports (R127). -/

namespace Sys2Proof.Machine

/-- is_alpha: 'A' to 'Z' or 'a' to 'z' (R120). -/
def isAlpha (b : Byte) : Bool := (0x41 ≤ b && b ≤ 0x5A) || (0x61 ≤ b && b ≤ 0x7A)

/-- All four bytes of a tag are alphabetic (R27 ALPHA; the test of R126, R128, R145, R151, R161). -/
def tagAlpha (t : Word) : Bool :=
  isAlpha (tagByte0 t) && isAlpha (tagByte1 t) && isAlpha (tagByte2 t) && isAlpha (tagByte3 t)

/-- is_critical: bit 5 of byte 0 is clear (R121). -/
def isCritical (t : Word) : Bool := !(tagByte0 t).getLsbD 5

/-- is_public: bit 5 of byte 1 is clear (R122). -/
def isPublic (t : Word) : Bool := !(tagByte1 t).getLsbD 5

/-- is_reserved_bit_valid: bit 5 of byte 2 is clear (R123). -/
def isReservedBitValid (t : Word) : Bool := !(tagByte2 t).getLsbD 5

/-- is_safe_to_copy: bit 5 of byte 3 is set (R124). -/
def isSafeToCopy (t : Word) : Bool := (tagByte3 t).getLsbD 5

/-- is_valid: all bytes alphabetic and the reserved bit valid (R125). -/
def isValid (t : Word) : Bool := tagAlpha t && isReservedBitValid t

/-- A word with one bit, at position `i`, holding `b`. -/
def bitAt (i : Nat) (b : Bool) : Word := (BitVec.ofBool b).setWidth 32 <<< i

/-- TAGFLAGS, a live function of TAG (R27). -/
def tagFlags (t : Word) : Word :=
  bitAt 0 (isAlpha (tagByte0 t)) ||| bitAt 1 (isAlpha (tagByte1 t))
    ||| bitAt 2 (isAlpha (tagByte2 t)) ||| bitAt 3 (isAlpha (tagByte3 t))
    ||| bitAt 4 (tagAlpha t)
    ||| bitAt 8 (isCritical t) ||| bitAt 9 (isPublic t)
    ||| bitAt 10 (isReservedBitValid t) ||| bitAt 11 (isSafeToCopy t)
    ||| bitAt 12 (isValid t)

/-- The number of an error code (R181). -/
def ErrCode.code : ErrCode → BitVec 4
  | .success => 0
  | .invalidBytes => 1
  | .invalidLength => 2
  | .invalidCharacter => 3
  | .invalidChunkType => 4
  | .unexpectedEof => 5
  | .invalidChecksum => 6
  | .bufferOverflow => 7
  | .rangeError => 8
  | .illegalCommand => 9

/-- The number of a comparison result (R24). -/
def Cmp.code : Cmp → BitVec 2
  | .equal => 0b00
  | .below => 0b01
  | .above => 0b10

/-- STATUS.BUSY: a command is executing (R24, R180). -/
def State.busy (s : State) : Bool := s.inflight.isSome

/-- The STATUS register as a word (R24). -/
def statusWord (s : State) : Word :=
  bitAt 0 s.busy ||| bitAt 2 s.errSticky ||| bitAt 3 s.chunkValid
    ||| (s.errCode.code.setWidth 32 <<< 4) ||| (s.cmp.code.setWidth 32 <<< 8)

/-- The comparison of two packed tags as unsigned words (R127). -/
def compareTags (a b : Word) : Cmp :=
  if a = b then .equal else if a.toNat < b.toNat then .below else .above

end Sys2Proof.Machine
end

