-- ==== Sys2Proof/Machine/Ops.lean ====
section
/-! DEFINITION. The named operations over the buffers and the registers: reading and writing bytes, the one failing end
and the one succeeding end of every command (R182, R183; the block has no exception or trap, R188), and the
commits of the chunk commands (R145, R152, R162). -/

namespace Sys2Proof.Machine

/-- Outcome of one step or one command. -/
abbrev Result := Host.Outcome State Fault Refusal

/-! ## Buffers -/

/-- The byte a buffer holds at an index, if it holds one (R39). -/
def Memory.read : Memory → Nat → Option Byte
  | [], _ => none
  | (k, b) :: m, i => if k = i then some b else Memory.read m i

/-- A buffer after a write of one byte, in canonical form. -/
def Memory.write : Memory → Nat → Byte → Memory
  | [], i, v => [(i, v)]
  | (k, b) :: m, i, v =>
    if i < k then (i, v) :: (k, b) :: m
    else if i = k then (i, v) :: m
    else (k, b) :: Memory.write m i v

/-- The canonical form: indices strictly rising, so no index twice. -/
abbrev Memory.wf (m : Memory) : Prop := m.Pairwise (fun x y => x.1 < y.1)

/-- Every byte lies inside a buffer of the given size (R69). -/
abbrev Memory.within (m : Memory) (size : Nat) : Prop := ∀ x ∈ m, x.1 < size

/-- `n` bytes from index `i` on, or the first index among them that holds no value (R8, R39). -/
def Memory.readRange (m : Memory) (i : Nat) : Nat → Except Nat (List Byte)
  | 0 => .ok []
  | n + 1 =>
    match Memory.read m i with
    | none => .error i
    | some b =>
      match Memory.readRange m (i + 1) n with
      | .ok bs => .ok (b :: bs)
      | .error j => .error j

/-- A buffer after a write of a byte sequence from index `i` on. -/
def Memory.writeRange (m : Memory) (i : Nat) : List Byte → Memory
  | [] => m
  | b :: bs => Memory.writeRange (Memory.write m i b) (i + 1) bs

/-- The contents of a buffer (R38). -/
def State.buf (s : State) : Buf → Memory
  | .ibuf => s.ibuf
  | .dbuf => s.dbuf
  | .obuf => s.obuf

/-- Run `k` on `n` bytes of a buffer from index `i` on, or stop at the first that holds no value (R39). -/
def State.withBytes (s : State) (b : Buf) (i n : Nat) (k : List Byte → Result) : Result :=
  match Memory.readRange (s.buf b) i n with
  | .ok bs => k bs
  | .error j => .fault (.unwrittenByte b j)

/-- Run `k` on the big-endian word at index `i` of a buffer (R59), or stop at the first byte that holds no value. -/
def State.withWord (s : State) (b : Buf) (i : Nat) (k : Word → Result) : Result :=
  match Memory.read (s.buf b) i with
  | none => .fault (.unwrittenByte b i)
  | some b0 =>
    match Memory.read (s.buf b) (i + 1) with
    | none => .fault (.unwrittenByte b (i + 1))
    | some b1 =>
      match Memory.read (s.buf b) (i + 2) with
      | none => .fault (.unwrittenByte b (i + 2))
      | some b2 =>
        match Memory.read (s.buf b) (i + 3) with
        | none => .fault (.unwrittenByte b (i + 3))
        | some b3 => k (be32 b0 b1 b2 b3)

/-- Run `k` on the data of the current chunk, DBUF[0..LENGTH) (R28, R38). -/
def State.withData (s : State) (k : List Byte → Result) : Result :=
  s.withBytes .dbuf 0 s.length.toNat k

/-- A byte written to a buffer by the host: a write to DBUF clears CHUNK_VALID, at every index (R58). -/
def State.pokeByte (s : State) (b : Buf) (i : Nat) (v : Byte) : State :=
  match b with
  | .ibuf => { s with ibuf := Memory.write s.ibuf i v }
  | .dbuf => { s with dbuf := Memory.write s.dbuf i v, chunkValid := false }
  | .obuf => { s with obuf := Memory.write s.obuf i v }

/-! ## How a command ends -/

/-- `raise e`: the whole effect of a failing command, but for the diagnostic registers (R182). -/
def State.raise (s : State) (e : ErrCode) : State := { s with errCode := e, errSticky := true }

/-- The end of a succeeding command: ERRCODE is 0, ERR_STICKY stays (R183). -/
def State.complete (s : State) : State := { s with errCode := .success }

/-! ## What the commands write -/

/-- A new CRC_STATE (R103 to R106). -/
def State.putCrcState (s : State) (c : Word) : State := { s with crcState := c }

/-- A new STATUS.CMP (R127). -/
def State.putCmp (s : State) (c : Cmp) : State := { s with cmp := c }

/-- CRC_RX and CRC_CALC, written by a parse that reaches its checksum test (R30, R151 step 5). -/
def State.putDiagnostics (s : State) (rx sum : Word) : State := { s with crcRx := rx, crcCalc := sum }

/-- The writes of a successful CHUNK_NEW (R145). -/
def State.commitNew (s : State) (data : List Byte) : State :=
  { s with crc := chunkCrc s.tag data, chunkValid := true }

/-- The writes of a successful CHUNK_PARSE of a chunk framed at index `p` (R152). -/
def State.commitParse (s : State) (p : Nat) (len tag : Word) (data : List Byte) (sum : Word) : State :=
  { s with
    tag := tag
    length := len
    dbuf := Memory.writeRange s.dbuf 0 data
    crc := sum
    inPos := BitVec.ofNat 32 (p + 12 + len.toNat)
    chunkValid := true }

/-- The writes of a successful CHUNK_SERIALIZE (R162). -/
def State.commitSerialize (s : State) (data : List Byte) : State :=
  { s with
    obuf := Memory.writeRange s.obuf s.outLen.toNat (serialize s.tag s.length data)
    outLen := BitVec.ofNat 32 (s.outLen.toNat + 12 + s.length.toNat)
    crc := chunkCrc s.tag data
    chunkValid := true }

end Sys2Proof.Machine
end

