-- ==== Sys2Proof/Machine/Bus.lean ====
section
/-! DEFINITION. The host port (20_memory.md): what an access reaches, what it reads, what it writes, and when it is
held (R51 to R58, R61 to R64); and what reset does (R200). -/

namespace Sys2Proof.Machine

/-- What a legal access reaches. -/
inductive Target where
  | reg (r : Reg)
  | byte (b : Buf) (i : Nat)
  deriving DecidableEq, Repr

/-- What an access of `width` bytes at an offset reaches: a register for an aligned 4-byte access, a buffer byte for a
1-byte access to an index inside the buffer, and otherwise nothing, which is a bus error (R51 to R55). -/
def locate (c : Caps) (off : Word) (width : Nat) : Option Target :=
  if off.toNat < regWindowSize then
    if width = 4 then (regAt off).map .reg else none
  else if width = 1 then
    match windowAt off.toNat with
    | some (b, i) => if i < bufSize c b then some (.byte b i) else none
    | none => none
  else none

/-- The value a register reads as (R56; R22 to R36). A read of CMD gives 0 (R23). -/
def State.readReg (s : State) : Reg → Word
  | .cmd => 0
  | .status => statusWord s
  | .tag => s.tag
  | .tagB => s.tagB
  | .tagflags => tagFlags s.tag
  | .length => s.length
  | .crc => s.crc
  | .crcRx => s.crcRx
  | .crcCalc => s.crcCalc
  | .crcState => s.crcState
  | .crcValue => crcValueOf s.crcState
  | .inLen => s.inLen
  | .inPos => s.inPos
  | .outLen => s.outLen
  | .ibufCap => BitVec.ofNat 32 s.caps.ibuf
  | .dbufCap => BitVec.ofNat 32 s.caps.dbuf
  | .obufCap => BitVec.ofNat 32 s.caps.obuf

/-- A command starts: BUSY is 1 until the engine has run it (R23, R180). -/
def State.start (s : State) (w : Word) (delay : Nat) : State := { s with inflight := some ⟨w, delay⟩ }

/-- The effect of a register write (R57; R23 to R36). `delay` is read by a write to CMD only (log 3). -/
def State.writeReg (s : State) (r : Reg) (v : Word) (delay : Nat) : State :=
  match r with
  | .cmd => s.start v delay
  | .status => if v.getLsbD 2 then { s with errSticky := false } else s
  | .tag => { s with tag := v, chunkValid := false }
  | .tagB => { s with tagB := v }
  | .length => { s with length := v, chunkValid := false }
  | .crcState => { s with crcState := v }
  | .inLen => { s with inLen := v }
  | .inPos => { s with inPos := v }
  | .outLen => { s with outLen := v }
  | .tagflags => s
  | .crc => s
  | .crcRx => s
  | .crcCalc => s
  | .crcValue => s
  | .ibufCap => s
  | .dbufCap => s
  | .obufCap => s

/-- The bus answers the access at the head of the queue. -/
def State.answer (s : State) (r : Reply) : State := { s with reply := some r }

/-- One host access performed on an idle block (R54 to R58). -/
def performAccess (a : Access) (delay : Nat) (s : State) : Result :=
  match a with
  | .read off width =>
    match locate s.caps off width with
    | none => .fault (.busError a)
    | some (.reg r) => .next (s.answer (.word (s.readReg r)))
    | some (.byte b i) =>
      match Memory.read (s.buf b) i with
      | none => .fault (.unwrittenByte b i)
      | some v => .next (s.answer (.byte v))
  | .write off width v =>
    match locate s.caps off width with
    | none => .fault (.busError a)
    | some (.reg r) => .next ((s.writeReg r v delay).answer .written)
    | some (.byte b i) => .next ((s.pokeByte b i (v.setWidth 8)).answer .written)

/-- The next access in arrival order, if any, is performed and leaves the queue (R64). With none the block is idle
(R195; log 18). -/
def hostTurn (s : State) : Result :=
  match s.port with
  | [] => .next s
  | r :: rest => performAccess r.access r.delay { s with port := rest }

/-- Whether an access completes at once while a command runs: a read of STATUS (R61; log 11). -/
def Access.isStatusRead : Access → Bool
  | .read off width => off == Reg.status.offset && width == 4
  | .write _ _ _ => false

/-- A host turn passes while the command `c` runs: a read of STATUS at the head of the queue is answered with BUSY = 1,
every other access stays where it is, and the engine is one turn nearer (R61; log 3, log 12). -/
def busyTurn (c : InFlight) (s : State) : Result :=
  let s' := { s with inflight := some ⟨c.word, c.delay - 1⟩ }
  match s.port with
  | [] => .next s'
  | r :: rest =>
    if r.access.isStatusRead then .next ({ s' with port := rest }.answer (.word (statusWord s)))
    else .next s'

/-- Whether an access is a command: a write to the CMD register (R23, R54, the glossary of 00_scope.md). -/
def Access.isCommand : Access → Bool
  | .read _ _ => false
  | .write off width _ => off == Reg.cmd.offset && width == 4

/-- Whether a held access made before reset keeps its place when reset is applied. A command does not: after reset no
command is pending (R200). Of any other it is a free value (log 19). -/
def Request.outlastsReset (r : Request) : Bool :=
  !r.access.isCommand &&
    match r.access with
    | .read off width => Config.heldAccessOutlastsReset off width none
    | .write off width v => Config.heldAccessOutlastsReset off width (some v)

/-- Reset is applied: a command in progress is abandoned, no command is pending, every register and field takes its
reset value, no buffer byte holds a value, and the capacities stay (R200). Of the accesses made before it and still
held, those that outlast it keep their places and are performed once it is released (log 19); one made during it stays
refused (R201). -/
def State.applyReset (s : State) : State :=
  { State.resetWith s.caps with
    resetLine := true
    port := s.port.filter Request.outlastsReset
    madeInReset := s.madeInReset }

end Sys2Proof.Machine
end

