-- ==== Sys2Proof/Syntax.lean ====
section
/-! DEFINITION. The commands of the block: one constructor per row of the opcode table (R72), and one for the class of
illegal words (R74), which carries the word itself. -/

namespace Sys2Proof

/-- A command. Its only immediate operand is ARG, an unsigned byte (R71). -/
inductive Instr where
  /-- CRC_INIT (R103). -/
  | crcInit
  /-- CRC_BYTE b (R104). -/
  | crcByte (b : Byte)
  /-- CRC_TAG (R105). -/
  | crcTag
  /-- CRC_DATA (R106). -/
  | crcData
  /-- TAG_CHECK (R126). -/
  | tagCheck
  /-- TAG_CHECK_STR n (R128). -/
  | tagCheckStr (n : Byte)
  /-- TAG_CMP (R127). -/
  | tagCmp
  /-- CHUNK_NEW (R145). -/
  | chunkNew
  /-- CHUNK_PARSE (R151, R152). -/
  | chunkParse
  /-- CHUNK_SERIALIZE (R161, R162). -/
  | chunkSerialize
  /-- ILLEGAL: the command an illegal word w starts (R74; log 14). -/
  | illegal (w : Word)
  deriving DecidableEq, Repr

end Sys2Proof
end

