-- ==== Sys2Proof/WellFormed.lean ====
section
/-! DEFINITION. Well-formed commands: the word an illegal command carries really is illegal, by the three
conditions R74 lists. Every other command is well formed at every operand (R71). -/

namespace Sys2Proof

/-- OP values of the commands that take an ARG (R71, R72): CRC_BYTE and TAG_CHECK_STR. -/
def argOps : List Byte := [0x02, 0x11]

/-- OP values of the eight commands that take no ARG (R72, R74). -/
def plainOps : List Byte := [0x01, 0x03, 0x04, 0x10, 0x12, 0x20, 0x21, 0x22]

/-- R74: an OP outside the table, a nonzero RSVD field, or a nonzero ARG on a command that takes none. -/
def isIllegalWord (w : Word) : Bool :=
  let op := w.extractLsb' 0 8
  !(argOps ++ plainOps).contains op
    || w.extractLsb' 16 16 != 0
    || (w.extractLsb' 8 8 != 0 && plainOps.contains op)

/-- The check of one command. -/
def Instr.wf : Instr → Bool
  | .crcInit => true
  | .crcByte _ => true
  | .crcTag => true
  | .crcData => true
  | .tagCheck => true
  | .tagCheckStr _ => true
  | .tagCmp => true
  | .chunkNew => true
  | .chunkParse => true
  | .chunkSerialize => true
  | .illegal w => isIllegalWord w

end Sys2Proof
end

