-- ==== Sys2Proof/Decode.lean ====
section
/-! DEFINITION. The command encoding (30_encoding.md): the fields of a command word, the opcode table, the decoder and,
after it, the encoder written from the same table. -/

namespace Sys2Proof

/-- The ten mnemonics of the opcode table (R72). -/
inductive Mnemonic where
  | crcInit | crcByte | crcTag | crcData
  | tagCheck | tagCheckStr | tagCmp
  | chunkNew | chunkParse | chunkSerialize
  deriving DecidableEq, Repr

/-- One row of the opcode table: a word selects it iff the bits under the mask equal the match value (R72). -/
structure Row where
  mnemonic : Mnemonic
  pattern : Word
  mask : Word
  deriving DecidableEq, Repr

/-- Mask of a command that takes no ARG: all bits are fixed (R72). -/
def allFixed : Word := 0xFFFF_FFFF

/-- Mask of a command that takes ARG in bits 15:8 (R72). -/
def argFree : Word := 0xFFFF_00FF

/-- A mnemonic's row of the table (R72). -/
def Mnemonic.row : Mnemonic → Row
  | .crcInit => ⟨.crcInit, 0x0000_0001, allFixed⟩
  | .crcByte => ⟨.crcByte, 0x0000_0002, argFree⟩
  | .crcTag => ⟨.crcTag, 0x0000_0003, allFixed⟩
  | .crcData => ⟨.crcData, 0x0000_0004, allFixed⟩
  | .tagCheck => ⟨.tagCheck, 0x0000_0010, allFixed⟩
  | .tagCheckStr => ⟨.tagCheckStr, 0x0000_0011, argFree⟩
  | .tagCmp => ⟨.tagCmp, 0x0000_0012, allFixed⟩
  | .chunkNew => ⟨.chunkNew, 0x0000_0020, allFixed⟩
  | .chunkParse => ⟨.chunkParse, 0x0000_0021, allFixed⟩
  | .chunkSerialize => ⟨.chunkSerialize, 0x0000_0022, allFixed⟩

/-- The opcode table, in the spec's order (R72). -/
def opcodeTable : List Row :=
  [.crcInit, .crcByte, .crcTag, .crcData, .tagCheck, .tagCheckStr, .tagCmp,
    .chunkNew, .chunkParse, .chunkSerialize].map Mnemonic.row

/-- Whether a word selects a row (R72). -/
def Row.selects (r : Row) (w : Word) : Bool := w &&& r.mask == r.pattern

/-- ARG, bits 15:8 of a command word, unsigned (R70, R71). -/
def argField (w : Word) : Byte := w.extractLsb' 8 8

/-- The command of a row at a given ARG; a command that takes none ignores it (R71). -/
def Mnemonic.command : Mnemonic → Byte → Instr
  | .crcInit, _ => .crcInit
  | .crcByte, b => .crcByte b
  | .crcTag, _ => .crcTag
  | .crcData, _ => .crcData
  | .tagCheck, _ => .tagCheck
  | .tagCheckStr, n => .tagCheckStr n
  | .tagCmp, _ => .tagCmp
  | .chunkNew, _ => .chunkNew
  | .chunkParse, _ => .chunkParse
  | .chunkSerialize, _ => .chunkSerialize

/-- The decoder (R73): the first row the word selects, and otherwise the illegal command. Total on words. -/
def decode (w : Word) : Instr :=
  match opcodeTable.find? (·.selects w) with
  | some r => r.mnemonic.command (argField w)
  | none => .illegal w

/-- Why a value is not a command word at all. -/
inductive DecodeError where
  /-- The value does not fit the one 32-bit word every command has (R70). -/
  | widerThanOneWord
  deriving DecidableEq, Repr

/-- Decoding of a number: every command is one 32-bit word (R70), so a wider value is rejected by name. -/
def decodeValue (v : Nat) : Except DecodeError Instr :=
  if v < 2 ^ 32 then .ok (decode (BitVec.ofNat 32 v)) else .error .widerThanOneWord

/-- The decoder at a row of spec/opcode_table.json, whose bit numbering is the command word's own (R7, R70). The bits
above `nbits` are zero, so the number itself is the value of the word; a value of more than `nbits` bits is none. -/
def decodeTableWord (nbits w : Nat) : Option Instr :=
  if w < 2 ^ nbits then (decodeValue w).toOption else none

/-- A row's word with ARG filled in (R70 to R72). -/
def Row.word (r : Row) (arg : Byte) : Word := r.pattern ||| (arg.setWidth 32 <<< 8)

/-- The encoder: the word of a command, from the same table (R72). An illegal command is the word it carries (R74). -/
def encode : Instr → Word
  | .crcInit => Mnemonic.crcInit.row.word 0
  | .crcByte b => Mnemonic.crcByte.row.word b
  | .crcTag => Mnemonic.crcTag.row.word 0
  | .crcData => Mnemonic.crcData.row.word 0
  | .tagCheck => Mnemonic.tagCheck.row.word 0
  | .tagCheckStr n => Mnemonic.tagCheckStr.row.word n
  | .tagCmp => Mnemonic.tagCmp.row.word 0
  | .chunkNew => Mnemonic.chunkNew.row.word 0
  | .chunkParse => Mnemonic.chunkParse.row.word 0
  | .chunkSerialize => Mnemonic.chunkSerialize.row.word 0
  | .illegal w => w

end Sys2Proof
end

