-- ==== Sys2Proof/Machine/ChunkCodec.lean ====
section
/-! DEFINITION. The chunk commands (42_chunk.md). Positions and lengths are natural numbers, so no comparison wraps
(R8). A byte is read at the step of the rule that reads it, and not before (log 6). -/

namespace Sys2Proof.Machine

/-- CHUNK_NEW: construct a chunk from TAG and DBUF (R145). -/
def execChunkNew (s : State) : Result :=
  if s.length.toNat > s.caps.dbuf then .next (s.raise .rangeError)
  else if !tagAlpha s.tag then .next (s.raise .invalidChunkType)
  else s.withData fun data => .next (s.commitNew data).complete

/-- Step 5 of CHUNK_PARSE and its commit, for a chunk of type `tag` and length `len` framed at index `p`: the
diagnostic registers are written whether or not the checksums agree (R151, R152; log 13). -/
def parseChecksum (p : Nat) (len tag : Word) (s : State) : Result :=
  s.withWord .ibuf (p + 8 + len.toNat) fun rx =>
    s.withBytes .ibuf (p + 8) len.toNat fun data =>
      let sum := chunkCrc tag data
      if rx ≠ sum then .next ((s.putDiagnostics rx sum).raise .invalidChecksum)
      else .next ((s.putDiagnostics rx sum).commitParse p len tag data sum).complete

/-- CHUNK_PARSE: parse one chunk from IBUF, testing in the fixed order of steps 1 to 5 (R151). -/
def execChunkParse (s : State) : Result :=
  let n := s.inLen.toNat
  let p := s.inPos.toNat
  if n > s.caps.ibuf ∨ p > n then .next (s.raise .rangeError)
  else if n - p < 12 then .next (s.raise .unexpectedEof)
  else s.withWord .ibuf p fun len =>
    if len.toNat > n - p - 12 then .next (s.raise .unexpectedEof)
    else s.withWord .ibuf (p + 4) fun tag =>
      if !tagAlpha tag then .next (s.raise .invalidChunkType)
      else parseChecksum p len tag s

/-- CHUNK_SERIALIZE: emit the current chunk into OBUF at OUT_LEN (R161, R162). -/
def execChunkSerialize (s : State) : Result :=
  if s.length.toNat > s.caps.dbuf ∨ s.outLen.toNat > s.caps.obuf then .next (s.raise .rangeError)
  else if !tagAlpha s.tag then .next (s.raise .invalidChunkType)
  else if s.outLen.toNat + 12 + s.length.toNat > s.caps.obuf then .next (s.raise .bufferOverflow)
  else s.withData fun data => .next (s.commitSerialize data).complete

end Sys2Proof.Machine
end

