-- ==== Sys2Proof/Machine/CrcGenerator.lean ====
section
/-! DEFINITION. The CRC generator's commands (40_crc.md). -/

namespace Sys2Proof.Machine

/-- CRC_INIT: start a new CRC (R103). -/
def execCrcInit (s : State) : Result := .next (s.putCrcState crcOnes).complete

/-- CRC_BYTE b: feed one byte (R104). -/
def execCrcByte (b : Byte) (s : State) : Result := .next (s.putCrcState (crcStep s.crcState b)).complete

/-- CRC_TAG: feed the four bytes of TAG, untested, byte 0 first (R105). -/
def execCrcTag (s : State) : Result :=
  .next (s.putCrcState (crcState s.crcState (be32bytes s.tag))).complete

/-- CRC_DATA: feed the data of the current chunk (R106). -/
def execCrcData (s : State) : Result :=
  if s.length.toNat > s.caps.dbuf then .next (s.raise .rangeError)
  else s.withData fun data => .next (s.putCrcState (crcState s.crcState data)).complete

end Sys2Proof.Machine
end

