-- ==== Sys2Proof/Machine/Illegal.lean ====
section
/-! DEFINITION. The illegal command (R74): what writing an illegal word to CMD does. -/

namespace Sys2Proof.Machine

/-- ILLEGAL: ERRCODE is 9 and ERR_STICKY is set, whatever the word (R74). -/
def execIllegal (s : State) : Result := .next (s.raise .illegalCommand)

end Sys2Proof.Machine
end

