-- ==== Sys2Proof/Machine/TagChecker.lean ====
section
/-! DEFINITION. The type-tag checker's commands (41_tag.md). TAGFLAGS is live and no command writes it (R27). -/

namespace Sys2Proof.Machine

/-- TAG_CHECK: a ChunkType from the four raw bytes of TAG; a set reserved bit is no error (R126). -/
def execTagCheck (s : State) : Result :=
  if tagAlpha s.tag then .next s.complete else .next (s.raise .invalidBytes)

/-- TAG_CHECK_STR n: a ChunkType from a string of n bytes; the length is tested first (R128). -/
def execTagCheckStr (n : Byte) (s : State) : Result :=
  if n.toNat ≠ 4 then .next (s.raise .invalidLength)
  else if tagAlpha s.tag then .next s.complete
  else .next (s.raise .invalidCharacter)

/-- TAG_CMP: compare TAG with TAG_B, untested (R127). -/
def execTagCmp (s : State) : Result := .next (s.putCmp (compareTags s.tag s.tagB)).complete

end Sys2Proof.Machine
end

