-- ==== Sys2Proof/Machine/Dispatch.lean ====
section
/-! DEFINITION. The command engine's dispatch: one arm per command (R72, R74). -/

namespace Sys2Proof.Machine

/-- The effect of one command (R180). -/
def exec (i : Instr) (s : State) : Host.Outcome State Fault Refusal :=
  match i with
  | .crcInit => Sys2Proof.Machine.execCrcInit s
  | .crcByte b => Sys2Proof.Machine.execCrcByte b s
  | .crcTag => Sys2Proof.Machine.execCrcTag s
  | .crcData => Sys2Proof.Machine.execCrcData s
  | .tagCheck => Sys2Proof.Machine.execTagCheck s
  | .tagCheckStr n => Sys2Proof.Machine.execTagCheckStr n s
  | .tagCmp => Sys2Proof.Machine.execTagCmp s
  | .chunkNew => Sys2Proof.Machine.execChunkNew s
  | .chunkParse => Sys2Proof.Machine.execChunkParse s
  | .chunkSerialize => Sys2Proof.Machine.execChunkSerialize s
  | .illegal _ => Sys2Proof.Machine.execIllegal s

end Sys2Proof.Machine
end

