-- ==== Sys2Proof/Machine/Engine.lean ====
section
/-! DEFINITION. The command engine's step (R180): decode the word in flight, run the command, and let BUSY fall. -/

namespace Sys2Proof.Machine

/-- BUSY falls: the command in flight has ended (R180). -/
def State.finish (s : State) : State := { s with inflight := none }

/-- The engine runs the command a word encodes against the state at this moment, in one step (R73, R180). -/
def engineTurn (w : Word) (s : State) : Host.Outcome State Fault Refusal :=
  match exec (decode w) s with
  | .next t => .next t.finish
  | .fault f => .fault f
  | .refused r => .refused r

/-- A command word placed where the engine takes its next command from, its delay over, with nothing of a reset in
its way. -/
def State.latch (s : State) (w : Word) : State :=
  { s with inflight := some ⟨w, 0⟩, resetLine := false, madeInReset := none }

end Sys2Proof.Machine
end

