-- ==== Sys2Proof/Machine/Step.lean ====
section
/-! DEFINITION. One step of the machine: the refusal of an access made during reset, else reset while it is applied,
else the engine where its command is due, else the host port. -/

namespace Sys2Proof.Machine

/-- The step function. Data in the state says which agent moves (R61, R180, R200, R201; log 3, log 4, log 7). -/
def step (s : State) : Host.Outcome State Fault Refusal :=
  match s.madeInReset with
  | some a => .refused (.accessDuringReset a)
  | none =>
    if s.resetLine then .next s.applyReset
    else
      match s.inflight with
      | none => hostTurn s
      | some c => if c.delay = 0 then engineTurn c.word s else busyTurn c s

/-- `s` with a command word in flight and due, so that the next step runs it (log 8). The block fetches nothing (R21):
this stands for the host's write to CMD. The bits above `nbits` are zero. -/
def State.withFetchWord (s : State) (nbits w : Nat) : State := s.latch (BitVec.ofNat 32 (w % 2 ^ nbits))

end Sys2Proof.Machine
end

