-- ==== Sys2Proof/Machine/HostProgram.lean ====
section
/-! DEFINITION. The host's side: presenting accesses, driving the reset input, and the assembler notation of host
programs with its pseudo-instructions (R76, R77). -/

namespace Sys2Proof.Machine

/-- The host makes an access: it arrives now. While reset is released it joins the end of the queue (R64). While
reset is applied it is one made during reset, which the next step refuses even where reset is released by then; of
several the first is named (R201; log 7). -/
def State.present (s : State) (a : Access) (delay : Nat) : State :=
  if s.resetLine then { s with madeInReset := s.madeInReset <|> some a }
  else { s with port := s.port ++ [⟨a, delay⟩] }

/-- The host drives the reset input. Reset takes effect when it is applied, so that no pulse is too short for it, and
lasts until it is released (R200; log 7). -/
def State.driveReset (s : State) (applied : Bool) : State :=
  if applied then s.applyReset else { s with resetLine := false }

/-! ## Assembler (R76) -/

/-- W32: write a register. -/
def asmW32 (r : Reg) (v : Word) : Access := .write r.offset 4 v

/-- R32: read a register. -/
def asmR32 (r : Reg) : Access := .read r.offset 4

/-- W8: write a buffer byte. -/
def asmW8 (b : Buf) (i : Nat) (v : Byte) : Access := .write (BitVec.ofNat 32 (b.window + i)) 1 (v.setWidth 32)

/-- R8: read a buffer byte. -/
def asmR8 (b : Buf) (i : Nat) : Access := .read (BitVec.ofNat 32 (b.window + i)) 1

/-- Why the assembler refuses a command line (R76). -/
inductive AsmError where
  /-- An ARG outside 0 to 255. -/
  | argOutOfRange
  /-- An ARG on a command that takes none. -/
  | argNotAllowed
  deriving DecidableEq, Repr

/-- The word of a command line: a mnemonic alone has ARG = 0 (R76; log 17). -/
def asmWord (m : Mnemonic) : Option Nat → Except AsmError Word
  | none => .ok (m.row.word 0)
  | some a =>
    if m.row.mask = allFixed then .error .argNotAllowed
    else if a < 256 then .ok (m.row.word (BitVec.ofNat 8 a))
    else .error .argOutOfRange

/-- A command line: a write of the command's word to CMD (R76). -/
def asmCommand (i : Instr) : Access := asmW32 .cmd (encode i)

/-! ## Pseudo-instructions (R77) -/

/-- LDTAG: the four characters of a tag into TAG. -/
def ldTag (c0 c1 c2 c3 : Byte) : List Access := [asmW32 .tag (be32 c0 c1 c2 c3)]

/-- LDTAGB: the four characters of a tag into TAG_B. -/
def ldTagB (c0 c1 c2 c3 : Byte) : List Access := [asmW32 .tagB (be32 c0 c1 c2 c3)]

/-- LDDATA: a byte sequence into DBUF from index 0, then its length into LENGTH. -/
def ldData (s : List Byte) : List Access :=
  s.zipIdx.map (fun x => asmW8 .dbuf x.2 x.1) ++ [asmW32 .length (BitVec.ofNat 32 s.length)]

/-- LDIN: a byte sequence into IBUF from index 0, then its length into IN_LEN and 0 into IN_POS. -/
def ldIn (s : List Byte) : List Access :=
  s.zipIdx.map (fun x => asmW8 .ibuf x.2 x.1)
    ++ [asmW32 .inLen (BitVec.ofNat 32 s.length), asmW32 .inPos 0]

/-- CHUNK_CRC: the crc of the current chunk, left in CRC_VALUE. -/
def chunkCrcProgram : List Access := [asmCommand .crcInit, asmCommand .crcTag, asmCommand .crcData]

/-- CRC_STR: feed a byte sequence to the generator. -/
def crcStr (s : List Byte) : List Access := s.map fun b => asmCommand (.crcByte b)

/-- Present a list of accesses, each with the delay its command would take. -/
def State.presentAll (s : State) (as : List (Access × Nat)) : State :=
  as.foldl (fun t a => t.present a.1 a.2) s

/-- One turn of WAIT's loop on a block whose queue is empty: read STATUS and take the steps until it is answered. -/
def pollStatus (s : State) : Host.Outcome State Fault Refusal :=
  match step (s.present (asmR32 .status) 0) with
  | .next t => if t.port.isEmpty then .next t else step t
  | o => o

/-- The last answer says that BUSY = 0. -/
def State.sawIdle (s : State) : Bool :=
  match s.reply with
  | some (.word v) => !v.getLsbD 0
  | _ => false

/-- WAIT: repeat R32 STATUS until BUSY = 0, at most `fuel` times (R77; log 16). -/
def waitIdle : Nat → State → Host.Outcome State Fault Refusal
  | 0, s => .next s
  | fuel + 1, s =>
    match pollStatus s with
    | .next t => if t.sawIdle then .next t else waitIdle fuel t
    | o => o

end Sys2Proof.Machine
end

