-- ==== Sys2Proof/Safety.lean ====
section
/-! DEFINITION. What claims are stated in: bytes held in a buffer, letters and legal accesses written out from the
rules (not through the model's own tests), the invariant, and runs of command sequences. -/

namespace Sys2Proof.Machine

/-! ## Bytes, letters, accesses -/

/-- From index `i` on, a buffer holds the bytes `bs` in order (R8, R38). -/
def Holds (m : Memory) (i : Nat) (bs : List Byte) : Prop :=
  ∀ k, (h : k < bs.length) → Memory.read m (i + k) = some bs[k]

/-- An ASCII letter, by its code (R120). -/
abbrev IsLetter (b : Byte) : Prop := (0x41 ≤ b.toNat ∧ b.toNat ≤ 0x5A) ∨ (0x61 ≤ b.toNat ∧ b.toNat ≤ 0x7A)

/-- All four bytes of a packed tag are letters (R25, R126). -/
abbrev LetterTag (t : Word) : Prop :=
  IsLetter (t.extractLsb' 24 8) ∧ IsLetter (t.extractLsb' 16 8) ∧ IsLetter (t.extractLsb' 8 8) ∧
    IsLetter (t.extractLsb' 0 8)

/-- An access the host port performs: four bytes at the offset of a register, a multiple of 4 up to 0x40, or one byte
inside a buffer (R22, R51, R52, R54). -/
def LegalAccess (c : Caps) (off : Word) (width : Nat) : Prop :=
  (width = 4 ∧ off.toNat % 4 = 0 ∧ off.toNat ≤ 0x40) ∨
  (width = 1 ∧ ∃ i, (i < c.ibuf ∧ off.toNat = 0x0100_0000 + i) ∨ (i < c.dbuf ∧ off.toNat = 0x0200_0000 + i) ∨
    (i < c.obuf ∧ off.toNat = 0x0300_0000 + i))

/-- The offset and width of an access (R9). -/
def Access.offset : Access → Word
  | .read off _ => off
  | .write off _ _ => off

/-- The width of an access in bytes (R9). -/
def Access.width : Access → Nat
  | .read _ w => w
  | .write _ w _ => w

/-- Reset is released, and no access made during it is left to refuse (R200, R201). -/
def Released (s : State) : Prop := s.resetLine = false ∧ s.madeInReset = none

/-- The next thing the block does is to perform the access at the head of its queue: no reset, no command in flight. -/
def AtPort (s : State) (a : Access) (delay : Nat) (rest : List Request) : Prop :=
  Released s ∧ s.inflight = none ∧ s.port = ⟨a, delay⟩ :: rest

/-- The next thing the block does is to run the command of word `w`: no reset, and its delay is over. -/
def Due (s : State) (w : Word) : Prop := Released s ∧ s.inflight = some ⟨w, 0⟩

/-! ## Outcomes -/

/-- An outcome with its next state changed by `f`. -/
def mapNext (f : State → State) : Result → Result
  | .next s => .next (f s)
  | .fault r => .fault r
  | .refused r => .refused r

/-! ## The invariant -/

/-- R37: while CHUNK_VALID = 1, the chunk registers hold a chunk whose crc is computed from them. The data bytes it
covers all hold values (R39). -/
def State.ChunkInv (s : State) : Prop :=
  s.chunkValid = true →
    s.length.toNat ≤ s.caps.dbuf ∧ LetterTag s.tag ∧
      ∃ data, data.length = s.length.toNat ∧ Holds s.dbuf 0 data ∧ s.crc = crc32 (be32bytes s.tag ++ data)

/-- Every buffer is in canonical form and inside its size (R38, R69). -/
def State.BufInv (s : State) : Prop :=
  ∀ b, Memory.wf (s.buf b) ∧ Memory.within (s.buf b) (bufSize s.caps b)

/-- The invariant every step keeps: capacities as R5 says, buffers well formed, R37. -/
structure State.Inv (s : State) : Prop where
  caps : s.caps.Legal
  bufs : s.BufInv
  chunk : s.ChunkInv

/-- R200: while reset is applied, the block is in its reset state: all but the accesses that outlast reset and the
refused one is as reset leaves it. -/
def State.ResetInv (s : State) : Prop := s.resetLine = true → s = s.applyReset

/-- What the host can do to the block between two steps: make accesses, and apply and release reset, in any order and
any number of times. -/
inductive HostActs (s : State) : State → Prop where
  | none : HostActs s s
  | present {t : State} (a : Access) (delay : Nat) : HostActs s t → HostActs s (t.present a delay)
  | driveReset {t : State} (applied : Bool) : HostActs s t → HostActs s (t.driveReset applied)

/-- The states a run of the machine passes through from `s`. -/
inductive Reaches (s : State) : State → Prop where
  | refl : Reaches s s
  | step {t u : State} : Reaches s t → step t = .next u → Reaches s u

/-- `k` steps of the machine, stopping at the first fault or refusal. -/
def runSteps : Nat → State → Result
  | 0, s => .next s
  | k + 1, s =>
    match step s with
    | .next t => runSteps k t
    | .fault f => .fault f
    | .refused r => .refused r

/-! ## Sequences of commands -/

/-- The end of a sequence of commands run one after another, each against the state the one before left (R180). -/
def execAll : List Instr → State → Result
  | [], s => .next s
  | i :: is, s =>
    match exec i s with
    | .next t => execAll is t
    | .fault f => .fault f
    | .refused r => .refused r

/-- The bytes a generator command feeds in a state (R107); none for another command or where it raises an error. -/
def fedBytes (s : State) : Instr → Option (List Byte)
  | .crcByte b => some [b]
  | .crcTag => some (be32bytes s.tag)
  | .crcData =>
    if s.length.toNat > s.caps.dbuf then none
    else (Memory.readRange s.dbuf 0 s.length.toNat).toOption
  | _ => none

/-- The bytes a sequence of generator commands feeds, each read when its command runs (R107); none where one of them
is no feeding command, raises an error or stops. -/
def fedAll : List Instr → State → Option (List Byte)
  | [], _ => some []
  | i :: is, s =>
    match fedBytes s i, exec i s with
    | some bs, .next t => (fedAll is t).map (bs ++ ·)
    | _, _ => none

/-! ## Chunks -/

/-- A chunk framed at IN_POS whose four fields are all present: IN_LEN bytes are in range, and IBUF holds the length,
the type, the data and the received crc, each in its place (R140, R150, R151 steps 1 to 3). -/
structure FramedAt (s : State) (len tag : Word) (data : List Byte) (rx : Word) : Prop where
  inLen_le : s.inLen.toNat ≤ s.caps.ibuf
  fits : s.inPos.toNat + 12 + len.toNat ≤ s.inLen.toNat
  data_length : data.length = len.toNat
  holds : Holds s.ibuf s.inPos.toNat (be32bytes len ++ be32bytes tag ++ data ++ be32bytes rx)

/-- The wire form of a chunk of a tag and data (R140). -/
def wireChunk (c : Word × List Byte) : List Byte :=
  be32bytes (BitVec.ofNat 32 c.2.length) ++ be32bytes c.1 ++ c.2 ++ be32bytes (crc32 (be32bytes c.1 ++ c.2))

/-- From `s`, the chunks `cs` are serialized one after another, ending in `v`: before each the host may change anything
but OBUF and OUT_LEN, the chunk registers then hold the chunk, and CHUNK_SERIALIZE succeeds (R163). -/
inductive Serialized : State → List (Word × List Byte) → State → Prop where
  | nil (s : State) : Serialized s [] s
  | cons {s u t v : State} {c : Word × List Byte} {cs : List (Word × List Byte)} :
    u.caps.Legal → u.outLen = s.outLen → (∀ k, Memory.read u.obuf k = Memory.read s.obuf k) →
    u.tag = c.1 → c.2.length = u.length.toNat → Holds u.dbuf 0 c.2 →
    exec .chunkSerialize u = .next t → t.errCode = .success → Serialized t cs v → Serialized s (c :: cs) v

/-- The commands that write the chunk registers' crc and may set CHUNK_VALID (R29, R37). -/
def isChunkCommand : Instr → Bool
  | .chunkNew => true
  | .chunkParse => true
  | .chunkSerialize => true
  | _ => false

/-- The four commands that write CRC_STATE (R31). -/
def isGeneratorCommand : Instr → Bool
  | .crcInit => true
  | .crcByte _ => true
  | .crcTag => true
  | .crcData => true
  | _ => false

/-- The error codes each command can report (R181), success among them. -/
def allowedCodes : Instr → List ErrCode
  | .crcInit => [.success]
  | .crcByte _ => [.success]
  | .crcTag => [.success]
  | .crcData => [.success, .rangeError]
  | .tagCheck => [.success, .invalidBytes]
  | .tagCheckStr _ => [.success, .invalidLength, .invalidCharacter]
  | .tagCmp => [.success]
  | .chunkNew => [.success, .rangeError, .invalidChunkType]
  | .chunkParse => [.success, .rangeError, .unexpectedEof, .invalidChunkType, .invalidChecksum]
  | .chunkSerialize => [.success, .rangeError, .invalidChunkType, .bufferOverflow]
  | .illegal _ => [.illegalCommand]

end Sys2Proof.Machine
end

