-- ==== Sys2Proof/Certificates/Slice0/Obligations.lean ====
section
/-! DEFINITION. The statements for the provers. Each docstring names the rule of the spec it formalises, or says that it
is derived. A statement about every state holds in every state, or names the invariant it needs. -/

open Sys2Proof Sys2Proof.Machine

/-! ## Encoding (30_encoding.md) -/

/-- Derived (R70 to R74): a word of each command, written out from the table, decodes to it; so do three illegal words. -/
def Obligations.TableWordsDecodeToTheirCommands : Prop :=
  decode 0x0000_0001 = .crcInit ∧ decode 0x0000_3102 = .crcByte 0x31 ∧ decode 0x0000_0003 = .crcTag ∧
  decode 0x0000_0004 = .crcData ∧ decode 0x0000_0010 = .tagCheck ∧ decode 0x0000_0411 = .tagCheckStr 4 ∧
  decode 0x0000_0012 = .tagCmp ∧ decode 0x0000_0020 = .chunkNew ∧ decode 0x0000_0021 = .chunkParse ∧
  decode 0x0000_0022 = .chunkSerialize ∧ decode 0x0000_0000 = .illegal 0x0000_0000 ∧
  decode 0x0000_0101 = .illegal 0x0000_0101 ∧ decode 0x0001_0012 = .illegal 0x0001_0012

/-- Derived (R70 to R74): decoding the word of a well-formed command gives the command back, at every operand. -/
def Obligations.DecodeOfEncodeIsIdentity : Prop :=
  ∀ i : Instr, i.wf = true → decode (encode i) = i

/-- Derived (R70 to R74): every word decodes to a well-formed command whose word it is, so no bit is dropped. -/
def Obligations.EncodeOfDecodeIsIdentity : Prop :=
  ∀ w : Word, (decode w).wf = true ∧ encode (decode w) = w

/-- R74: which words are illegal, and all that writing one does: ERRCODE is 9 and ERR_STICKY is set, through BUSY like
any other command. -/
def Obligations.IllegalWordsRaiseIllegalCommand : Prop :=
  (∀ w : Word, decode w = .illegal w ↔
    ((w.extractLsb' 0 8).toNat ∉ [0x01, 0x02, 0x03, 0x04, 0x10, 0x11, 0x12, 0x20, 0x21, 0x22] ∨
      w.extractLsb' 16 16 ≠ 0 ∨
      (w.extractLsb' 8 8 ≠ 0 ∧ (w.extractLsb' 0 8).toNat ∈ [0x01, 0x03, 0x04, 0x10, 0x12, 0x20, 0x21, 0x22]))) ∧
  (∀ (w : Word) (s : State), exec (.illegal w) s = .next { s with errCode := .illegalCommand, errSticky := true }) ∧
  (∀ (w : Word) (s : State), Due s w → decode w = .illegal w →
    step s = .next { s with errCode := .illegalCommand, errSticky := true, inflight := none }) ∧
  ErrCode.illegalCommand.code = 9

/-! ## The CRC function and the generator (40_crc.md) -/

/-- R101: crc_step is the xor of the byte into the state, then eight rounds of a logical shift right with the polynomial
xored in where bit 0 was 1; with the rule's three examples. -/
def Obligations.CrcStepIsEightRounds : Prop :=
  (∀ (c : Word) (b : Byte), crcStep c b =
    (fun x : Word => if x.getLsbD 0 = true then (x >>> 1) ^^^ 0xEDB8_8320 else x >>> 1)^[8] (c ^^^ b.setWidth 32)) ∧
  crcStep 0 0x01 = 0x7707_3096 ∧ crcStep 0 0x80 = 0xEDB8_8320 ∧ crcStep 0xFFFF_FFFF 0x00 = 0x2DFD_1072

/-- Derived (R101, R102, and R102's own remark that no rule depends on it): one byte through the 256-entry table, whose
entries are the steps from state 0, is the bitwise step. -/
def Obligations.CrcTableStepEqualsBitwiseStep : Prop :=
  ∀ (c : Word) (b : Byte), crcStep c b = (c >>> 8) ^^^ crcStep 0 (c.setWidth 8 ^^^ b)

/-- Derived (R102; the detection property R154 takes from general knowledge, for one byte): changing one byte of a
sequence changes its CRC. -/
def Obligations.OneChangedByteChangesTheCrc : Prop :=
  ∀ (xs ys : List Byte) (a b : Byte), a ≠ b → crc32 (xs ++ a :: ys) ≠ crc32 (xs ++ b :: ys)

/-- R103: CRC_INIT, whose one word is 0x0000_0001, sets CRC_STATE to all ones and ERRCODE to 0, changes nothing else, and
CRC_VALUE then reads 0. -/
def Obligations.CrcInitStartsANewCrc : Prop :=
  (∀ w : Word, decode w = .crcInit ↔ w = 0x0000_0001) ∧
  ∀ s : State, ∃ t, exec .crcInit s = .next t ∧ t = { s with crcState := 0xFFFF_FFFF, errCode := .success } ∧
    t.readReg .crcValue = 0

/-- R104: CRC_BYTE b, whose word is 0x0000_0002 with b in bits 15:8, steps CRC_STATE by b, at every state and byte, and
changes nothing else but ERRCODE; with the rule's corner cases and example. -/
def Obligations.CrcByteFeedsItsOperand : Prop :=
  (∀ (b : Byte) (w : Word), decode w = .crcByte b ↔ w = 0x0000_0002 ||| (b.setWidth 32 <<< 8)) ∧
  (∀ (b : Byte) (s : State),
    exec (.crcByte b) s = .next { s with crcState := crcStep s.crcState b, errCode := .success }) ∧
  crcStep 0xFFFF_FFFF 0x00 = 0x2DFD_1072 ∧ crcStep 0x0000_0000 0x00 = 0x0000_0000 ∧
  crcStep 0xFFFF_FFFF 0x31 = 0x7C23_1048

/-- R105: CRC_TAG, whose one word is 0x0000_0003, steps CRC_STATE by the four bytes of TAG, bits 31:24 first, with no
alphabetic test; with the rule's example. -/
def Obligations.CrcTagFeedsTheTagBytes : Prop :=
  (∀ w : Word, decode w = .crcTag ↔ w = 0x0000_0003) ∧
  (∀ s : State, exec .crcTag s = .next { s with
    crcState := crcStep (crcStep (crcStep (crcStep s.crcState (s.tag.extractLsb' 24 8)) (s.tag.extractLsb' 16 8))
      (s.tag.extractLsb' 8 8)) (s.tag.extractLsb' 0 8)
    errCode := .success }) ∧
  crcState 0xFFFF_FFFF [0x52, 0x75, 0x53, 0x74] = 0x2B7B_F6C3

/-- Derived (R106; log 13): CRC_DATA, whose one word is 0x0000_0004, raises RangeError where LENGTH is over DBUF_SIZE, and
otherwise steps CRC_STATE by DBUF[0..LENGTH); a byte there that holds no value is a fault. That the fault names the first
such index is the model's choice (log 13). -/
def Obligations.CrcDataFeedsTheChunkData : Prop :=
  (∀ w : Word, decode w = .crcData ↔ w = 0x0000_0004) ∧
  (∀ s : State, s.length.toNat > s.caps.dbuf →
    exec .crcData s = .next { s with errCode := .rangeError, errSticky := true }) ∧
  (∀ (s : State) (data : List Byte), s.length.toNat ≤ s.caps.dbuf → data.length = s.length.toNat →
    Holds s.dbuf 0 data →
    exec .crcData s = .next { s with crcState := data.foldl crcStep s.crcState, errCode := .success }) ∧
  (∀ (s : State) (j : Nat), s.length.toNat ≤ s.caps.dbuf → j < s.length.toNat → Memory.read s.dbuf j = none →
    (∀ k, k < j → Memory.read s.dbuf k ≠ none) → exec .crcData s = .fault (.unwrittenByte .dbuf j))

/-- Derived (R107's own derivation): after CRC_INIT, feeding commands of which none raises an error leave in CRC_VALUE
the crc32 of all the bytes they fed, in order; and CRC_INIT, CRC_TAG, CRC_DATA leave there the crc CHUNK_NEW computes. -/
def Obligations.GeneratorCommandsCompose : Prop :=
  (∀ (is : List Instr) (s s₀ : State) (bs : List Byte), exec .crcInit s = .next s₀ → fedAll is s₀ = some bs →
    ∃ t, execAll (.crcInit :: is) s = .next t ∧ t.readReg .crcValue = crc32 bs ∧ t.errCode = .success) ∧
  (∀ s t : State, exec .chunkNew s = .next t → t.errCode = .success →
    ∃ u, execAll [.crcInit, .crcTag, .crcData] s = .next u ∧ u.readReg .crcValue = t.crc)

/-- R108: the chunk commands neither read nor write CRC_STATE: another value of it changes nothing in what they do. -/
def Obligations.ChunkCommandsIgnoreCrcState : Prop :=
  (∀ (i : Instr) (s t : State), isChunkCommand i = true → exec i s = .next t → t.crcState = s.crcState) ∧
  (∀ (i : Instr) (s : State) (c : Word), isChunkCommand i = true →
    exec i { s with crcState := c } = mapNext (fun t => { t with crcState := c }) (exec i s))

/-! ## The tag checker (41_tag.md) -/

/-- R120: a byte is alphabetic iff it is in 0x41 to 0x5A or in 0x61 to 0x7A; 52 of the 256 bytes are. -/
def Obligations.AlphabeticBytesAreTheLetters : Prop :=
  (∀ b : Byte, isAlpha b = true ↔ (0x41 ≤ b.toNat ∧ b.toNat ≤ 0x5A) ∨ (0x61 ≤ b.toNat ∧ b.toNat ≤ 0x7A)) ∧
  ((List.range 256).filter fun n => isAlpha (BitVec.ofNat 8 n)).length = 52

/-- R27: every bit of TAGFLAGS, as a function of TAG; the reserved bits are 0; and its value at TAG = 0. -/
def Obligations.TagflagsBitsFollowTag : Prop :=
  ∀ s : State, ∀ f, f = s.readReg .tagflags →
    (f.getLsbD 0 = true ↔ IsLetter (s.tag.extractLsb' 24 8)) ∧
    (f.getLsbD 1 = true ↔ IsLetter (s.tag.extractLsb' 16 8)) ∧
    (f.getLsbD 2 = true ↔ IsLetter (s.tag.extractLsb' 8 8)) ∧
    (f.getLsbD 3 = true ↔ IsLetter (s.tag.extractLsb' 0 8)) ∧
    (f.getLsbD 4 = true ↔ LetterTag s.tag) ∧
    f.getLsbD 5 = false ∧ f.getLsbD 6 = false ∧ f.getLsbD 7 = false ∧
    f.getLsbD 8 = !s.tag.getLsbD 29 ∧ f.getLsbD 9 = !s.tag.getLsbD 21 ∧ f.getLsbD 10 = !s.tag.getLsbD 13 ∧
    f.getLsbD 11 = s.tag.getLsbD 5 ∧
    (f.getLsbD 12 = true ↔ LetterTag s.tag ∧ s.tag.getLsbD 13 = false) ∧
    (∀ k, 13 ≤ k → f.getLsbD k = false) ∧ (s.tag = 0 → f = 0x0000_0700)

/-- R126: TAG_CHECK, whose one word is 0x0000_0010, succeeds iff the four bytes of TAG are letters, else it raises
InvalidBytes; nothing else changes. -/
def Obligations.TagCheckTestsTheFourBytes : Prop :=
  (∀ w : Word, decode w = .tagCheck ↔ w = 0x0000_0010) ∧
  ∀ s : State,
    (LetterTag s.tag → exec .tagCheck s = .next { s with errCode := .success }) ∧
    (¬ LetterTag s.tag → exec .tagCheck s = .next { s with errCode := .invalidBytes, errSticky := true })

/-- R128: TAG_CHECK_STR n, whose word is 0x0000_0011 with n in bits 15:8, raises InvalidLength where n is not 4, whatever
TAG holds; else InvalidCharacter where a byte of TAG is no letter; else it succeeds. -/
def Obligations.TagCheckStrTestsLengthThenBytes : Prop :=
  (∀ (n : Byte) (w : Word), decode w = .tagCheckStr n ↔ w = 0x0000_0011 ||| (n.setWidth 32 <<< 8)) ∧
  ∀ (n : Byte) (s : State),
    (n.toNat ≠ 4 → exec (.tagCheckStr n) s = .next { s with errCode := .invalidLength, errSticky := true }) ∧
    (n.toNat = 4 → ¬ LetterTag s.tag →
      exec (.tagCheckStr n) s = .next { s with errCode := .invalidCharacter, errSticky := true }) ∧
    (n.toNat = 4 → LetterTag s.tag → exec (.tagCheckStr n) s = .next { s with errCode := .success })

/-- R127: TAG_CMP, whose one word is 0x0000_0012, writes CMP by the unsigned comparison of TAG and TAG_B, tests neither,
and succeeds. -/
def Obligations.TagCmpComparesUnsigned : Prop :=
  (∀ w : Word, decode w = .tagCmp ↔ w = 0x0000_0012) ∧
  ∀ s : State,
    (s.tag = s.tagB → exec .tagCmp s = .next { s with cmp := .equal, errCode := .success }) ∧
    (s.tag.toNat < s.tagB.toNat → exec .tagCmp s = .next { s with cmp := .below, errCode := .success }) ∧
    (s.tagB.toNat < s.tag.toNat → exec .tagCmp s = .next { s with cmp := .above, errCode := .success }) ∧
    Cmp.equal.code = 0b00 ∧ Cmp.below.code = 0b01 ∧ Cmp.above.code = 0b10

/-- Derived (R127's corner case): what TAG_CMP reports is the lexicographic order of the four raw bytes, byte 0 first. -/
def Obligations.TagCmpIsLexicographic : Prop :=
  ∀ s t : State, exec .tagCmp s = .next t →
    (t.cmp = .below ↔ (be32bytes s.tag).map BitVec.toNat < (be32bytes s.tagB).map BitVec.toNat) ∧
    (t.cmp = .above ↔ (be32bytes s.tagB).map BitVec.toNat < (be32bytes s.tag).map BitVec.toNat) ∧
    (t.cmp = .equal ↔ be32bytes s.tag = be32bytes s.tagB)

/-! ## The chunk commands (42_chunk.md) -/

/-- R145: CHUNK_NEW, whose one word is 0x0000_0020: RangeError, then InvalidChunkType, then CRC of the type bytes and the
data, with CHUNK_VALID; and where both tests pass, a data byte that holds no value is a fault (R39). -/
def Obligations.ChunkNewComputesTheCrc : Prop :=
  (∀ w : Word, decode w = .chunkNew ↔ w = 0x0000_0020) ∧
  (∀ s : State, s.length.toNat > s.caps.dbuf →
    exec .chunkNew s = .next { s with errCode := .rangeError, errSticky := true }) ∧
  (∀ s : State, s.length.toNat ≤ s.caps.dbuf → ¬ LetterTag s.tag →
    exec .chunkNew s = .next { s with errCode := .invalidChunkType, errSticky := true }) ∧
  (∀ (s : State) (data : List Byte), s.length.toNat ≤ s.caps.dbuf → LetterTag s.tag →
    data.length = s.length.toNat → Holds s.dbuf 0 data →
    exec .chunkNew s = .next { s with
      crc := crc32 (be32bytes s.tag ++ data), chunkValid := true, errCode := .success }) ∧
  (∀ (s : State) (k : Nat), s.length.toNat ≤ s.caps.dbuf → LetterTag s.tag → k < s.length.toNat →
    Memory.read s.dbuf k = none → ∃ j, exec .chunkNew s = .fault (.unwrittenByte .dbuf j))

/-- R151: CHUNK_PARSE, whose one word is 0x0000_0021: its errors in their order: register ranges, room for the fixed
fields, the declared length, the type, the checksum; only the last writes CRC_RX and CRC_CALC, and nothing else changes.
A byte of the framed chunk that holds no value is a fault, where no step before the one that reads it has failed. -/
def Obligations.ChunkParseRejectsInOrder : Prop :=
  (∀ w : Word, decode w = .chunkParse ↔ w = 0x0000_0021) ∧
  (∀ s : State, s.inLen.toNat > s.caps.ibuf ∨ s.inPos.toNat > s.inLen.toNat →
    exec .chunkParse s = .next { s with errCode := .rangeError, errSticky := true }) ∧
  (∀ s : State, s.inLen.toNat ≤ s.caps.ibuf → s.inPos.toNat ≤ s.inLen.toNat → s.inLen.toNat < s.inPos.toNat + 12 →
    exec .chunkParse s = .next { s with errCode := .unexpectedEof, errSticky := true }) ∧
  (∀ (s : State) (len : Word), s.inLen.toNat ≤ s.caps.ibuf → s.inPos.toNat + 12 ≤ s.inLen.toNat →
    Holds s.ibuf s.inPos.toNat (be32bytes len) → s.inLen.toNat < s.inPos.toNat + 12 + len.toNat →
    exec .chunkParse s = .next { s with errCode := .unexpectedEof, errSticky := true }) ∧
  (∀ (s : State) (len tag rx : Word) (data : List Byte), FramedAt s len tag data rx → ¬ LetterTag tag →
    exec .chunkParse s = .next { s with errCode := .invalidChunkType, errSticky := true }) ∧
  (∀ (s : State) (len tag rx : Word) (data : List Byte), FramedAt s len tag data rx → LetterTag tag →
    rx ≠ crc32 (be32bytes tag ++ data) →
    exec .chunkParse s = .next { s with
      crcRx := rx, crcCalc := crc32 (be32bytes tag ++ data), errCode := .invalidChecksum, errSticky := true }) ∧
  (∀ (s : State) (k : Nat), s.inLen.toNat ≤ s.caps.ibuf → s.inPos.toNat + 12 ≤ s.inLen.toNat → k < 4 →
    Memory.read s.ibuf (s.inPos.toNat + k) = none → ∃ j, exec .chunkParse s = .fault (.unwrittenByte .ibuf j)) ∧
  (∀ (s : State) (len : Word) (k : Nat), s.inLen.toNat ≤ s.caps.ibuf →
    s.inPos.toNat + 12 + len.toNat ≤ s.inLen.toNat → Holds s.ibuf s.inPos.toNat (be32bytes len) → 4 ≤ k → k < 8 →
    Memory.read s.ibuf (s.inPos.toNat + k) = none → ∃ j, exec .chunkParse s = .fault (.unwrittenByte .ibuf j)) ∧
  (∀ (s : State) (len tag : Word) (k : Nat), s.inLen.toNat ≤ s.caps.ibuf →
    s.inPos.toNat + 12 + len.toNat ≤ s.inLen.toNat →
    Holds s.ibuf s.inPos.toNat (be32bytes len ++ be32bytes tag) → LetterTag tag → 8 ≤ k → k < 12 + len.toNat →
    Memory.read s.ibuf (s.inPos.toNat + k) = none → ∃ j, exec .chunkParse s = .fault (.unwrittenByte .ibuf j))

/-- Derived (R151; the model's reading, log 6): a byte is read at the step that reads it, so a type that is no letter is
InvalidChunkType even where the data or the crc field holds no value. -/
def Obligations.ChunkTypeIsTestedBeforeDataIsRead : Prop :=
  ∀ (s : State) (len tag : Word), s.inLen.toNat ≤ s.caps.ibuf → s.inPos.toNat + 12 + len.toNat ≤ s.inLen.toNat →
    Holds s.ibuf s.inPos.toNat (be32bytes len ++ be32bytes tag) → ¬ LetterTag tag →
    exec .chunkParse s = .next { s with errCode := .invalidChunkType, errSticky := true }

/-- R152: the commit of CHUNK_PARSE: the chunk registers, DBUF[0..L) and no byte past it, CRC, IN_POS, the diagnostic
registers of R151 step 5, CHUNK_VALID and ERRCODE, and nothing else. -/
def Obligations.ChunkParseCommits : Prop :=
  ∀ (s : State) (len tag rx : Word) (data : List Byte), FramedAt s len tag data rx → LetterTag tag →
    rx = crc32 (be32bytes tag ++ data) →
    ∃ dbuf : Memory,
      exec .chunkParse s = .next { s with
        tag := tag, length := len, dbuf := dbuf, crc := rx, crcRx := rx, crcCalc := rx,
        inPos := BitVec.ofNat 32 (s.inPos.toNat + 12 + len.toNat), chunkValid := true, errCode := .success } ∧
      (BitVec.ofNat 32 (s.inPos.toNat + 12 + len.toNat) : Word).toNat = s.inPos.toNat + 12 + len.toNat ∧
      Holds dbuf 0 data ∧ ∀ k, len.toNat ≤ k → Memory.read dbuf k = Memory.read s.dbuf k

/-- R161: CHUNK_SERIALIZE, whose one word is 0x0000_0022: its errors in their order: RangeError, InvalidChunkType,
BufferOverflow; no byte of OBUF and no register but STATUS changes; and where all three tests pass, a data byte that holds
no value is a fault (R39). -/
def Obligations.ChunkSerializeRejectsInOrder : Prop :=
  (∀ w : Word, decode w = .chunkSerialize ↔ w = 0x0000_0022) ∧
  (∀ s : State, s.length.toNat > s.caps.dbuf ∨ s.outLen.toNat > s.caps.obuf →
    exec .chunkSerialize s = .next { s with errCode := .rangeError, errSticky := true }) ∧
  (∀ s : State, s.length.toNat ≤ s.caps.dbuf → s.outLen.toNat ≤ s.caps.obuf → ¬ LetterTag s.tag →
    exec .chunkSerialize s = .next { s with errCode := .invalidChunkType, errSticky := true }) ∧
  (∀ s : State, s.length.toNat ≤ s.caps.dbuf → s.outLen.toNat ≤ s.caps.obuf → LetterTag s.tag →
    s.outLen.toNat + 12 + s.length.toNat > s.caps.obuf →
    exec .chunkSerialize s = .next { s with errCode := .bufferOverflow, errSticky := true }) ∧
  (∀ (s : State) (k : Nat), s.length.toNat ≤ s.caps.dbuf → LetterTag s.tag →
    s.outLen.toNat + 12 + s.length.toNat ≤ s.caps.obuf → k < s.length.toNat → Memory.read s.dbuf k = none →
    ∃ j, exec .chunkSerialize s = .fault (.unwrittenByte .dbuf j))

/-- R162: the commit of CHUNK_SERIALIZE: length, type, data and recomputed crc at OBUF[OUT_LEN..), no byte outside them,
OUT_LEN, CRC, CHUNK_VALID and ERRCODE, and nothing else. The capacities are within R5, so OUT_LEN does not wrap. -/
def Obligations.ChunkSerializeCommits : Prop :=
  ∀ (s : State) (data : List Byte), s.caps.Legal → s.length.toNat ≤ s.caps.dbuf → LetterTag s.tag →
    s.outLen.toNat + 12 + s.length.toNat ≤ s.caps.obuf → data.length = s.length.toNat → Holds s.dbuf 0 data →
    ∃ (obuf : Memory) (outLen : Word),
      exec .chunkSerialize s = .next { s with
        obuf := obuf, outLen := outLen, crc := crc32 (be32bytes s.tag ++ data),
        chunkValid := true, errCode := .success } ∧
      outLen.toNat = s.outLen.toNat + 12 + s.length.toNat ∧
      Holds obuf s.outLen.toNat
        (be32bytes s.length ++ be32bytes s.tag ++ data ++ be32bytes (crc32 (be32bytes s.tag ++ data))) ∧
      ∀ k, k < s.outLen.toNat ∨ s.outLen.toNat + 12 + s.length.toNat ≤ k → Memory.read obuf k = Memory.read s.obuf k

/-- R186: CHUNK_PARSE succeeds only on a chunk whose received crc is the recomputed one, and CRC is then that value; a
framed chunk with letters for a type and another crc ends in InvalidChecksum. -/
def Obligations.ChecksumMismatchIsAlwaysReported : Prop :=
  (∀ s t : State, exec .chunkParse s = .next t → t.errCode = .success →
    ∃ len tag data rx, FramedAt s len tag data rx ∧ LetterTag tag ∧ rx = crc32 (be32bytes tag ++ data) ∧ t.crc = rx) ∧
  (∀ (s t : State) (len tag rx : Word) (data : List Byte), FramedAt s len tag data rx → LetterTag tag →
    rx ≠ crc32 (be32bytes tag ++ data) → exec .chunkParse s = .next t →
    t.errCode = .invalidChecksum ∧ t.crc = s.crc ∧ t.crcRx = rx)

/-- Derived (R150): the parser reads no byte of IBUF outside the chunk it frames: another IBUF with the same bytes there
changes nothing in what CHUNK_PARSE does. -/
def Obligations.ParserReadsOnlyTheFramedChunk : Prop :=
  ∀ (s : State) (len : Word) (m : Memory), Holds s.ibuf s.inPos.toNat (be32bytes len) →
    (∀ k, k < 12 + len.toNat → Memory.read m (s.inPos.toNat + k) = Memory.read s.ibuf (s.inPos.toNat + k)) →
    exec .chunkParse { s with ibuf := m } = mapNext (fun t => { t with ibuf := m }) (exec .chunkParse s)

/-- Derived (R164's own derivation): what CHUNK_SERIALIZE emits, copied into IBUF at IN_POS, CHUNK_PARSE takes back to
the same tag, length, data and crc. -/
def Obligations.SerializeThenParseRoundTrips : Prop :=
  ∀ s t u : State, exec .chunkSerialize s = .next t → t.errCode = .success →
    u.inLen.toNat ≤ u.caps.ibuf → u.inPos.toNat + 12 + s.length.toNat ≤ u.inLen.toNat →
    (∀ k, k < 12 + s.length.toNat →
      Memory.read u.ibuf (u.inPos.toNat + k) = Memory.read t.obuf (s.outLen.toNat + k)) →
    ∃ v, exec .chunkParse u = .next v ∧ v.errCode = .success ∧ v.chunkValid = true ∧ v.tag = s.tag ∧
      v.length = s.length ∧ v.crc = t.crc ∧ v.inPos.toNat = u.inPos.toNat + 12 + s.length.toNat ∧
      ∀ k, k < s.length.toNat → Memory.read v.dbuf k = Memory.read s.dbuf k

/-- Derived (R165's own derivation): after a successful CHUNK_PARSE, CHUNK_SERIALIZE of the same chunk registers with
room in OBUF emits exactly the bytes that were parsed. -/
def Obligations.ParseThenSerializeRoundTrips : Prop :=
  ∀ s t u : State, exec .chunkParse s = .next t → t.errCode = .success → u.tag = t.tag → u.length = t.length →
    (∀ k, k < t.length.toNat → Memory.read u.dbuf k = Memory.read t.dbuf k) → t.length.toNat ≤ u.caps.dbuf →
    u.outLen.toNat + 12 + t.length.toNat ≤ u.caps.obuf →
    ∃ v, exec .chunkSerialize u = .next v ∧ v.errCode = .success ∧
      ∀ k, k < 12 + t.length.toNat →
        Memory.read v.obuf (u.outLen.toNat + k) = Memory.read s.ibuf (s.inPos.toNat + k)

/-- Derived (R163's own derivation): any list of chunks serialized one after another, the host touching neither OBUF nor
OUT_LEN in between, stands as the concatenation of their wire forms at the first OUT_LEN; OUT_LEN ends after it, and no
byte outside it changes. And such a run exists for any chunks with letters for types, data that fits DBUF and room in OBUF
for all of them. -/
def Obligations.SerializedChunksConcatenate : Prop :=
  (∀ (cs : List (Word × List Byte)) (s v : State), Serialized s cs v →
    Holds v.obuf s.outLen.toNat (cs.flatMap wireChunk) ∧
    v.outLen.toNat = s.outLen.toNat + (cs.flatMap wireChunk).length ∧
    ∀ k, k < s.outLen.toNat ∨ s.outLen.toNat + (cs.flatMap wireChunk).length ≤ k →
      Memory.read v.obuf k = Memory.read s.obuf k) ∧
  (∀ (cs : List (Word × List Byte)) (s : State), s.caps.Legal → (∀ c ∈ cs, LetterTag c.1 ∧ c.2.length ≤ s.caps.dbuf) →
    s.outLen.toNat + (cs.flatMap wireChunk).length ≤ s.caps.obuf → ∃ v, Serialized s cs v)

/-- Derived (R153): a stream of chunks at IN_POS is parsed by one CHUNK_PARSE per chunk, each of which succeeds, and the
cursor ends at IN_LEN. -/
def Obligations.StreamOfChunksParses : Prop :=
  ∀ (cs : List (Word × List Byte)) (s : State),
    (∀ c ∈ cs, LetterTag c.1) → s.inLen.toNat ≤ s.caps.ibuf →
    s.inLen.toNat = s.inPos.toNat + (cs.flatMap wireChunk).length → Holds s.ibuf s.inPos.toNat (cs.flatMap wireChunk) →
    ∃ t, execAll (cs.map fun _ => .chunkParse) s = .next t ∧ t.inPos = t.inLen ∧ t.inLen = s.inLen ∧
      t.errSticky = s.errSticky ∧
      ∀ c ∈ cs.getLast?, t.tag = c.1 ∧ t.length.toNat = c.2.length ∧ Holds t.dbuf 0 c.2 ∧ t.chunkValid = true

/-- Derived (R154): one byte `j` of a serialized chunk, changed before the chunk is parsed, by field: a type byte that
is no letter is InvalidChunkType; one that is, a data byte or a crc byte is InvalidChecksum; a length byte that raises
the length is UnexpectedEof; one that lowers it frames a shorter chunk, with the outcome its bytes give. -/
def Obligations.OneCorruptedByteIsReported : Prop :=
  ∀ (s t u : State) (j : Nat) (b : Byte), exec .chunkSerialize s = .next t → t.errCode = .success →
    u.inPos = 0 → u.inLen.toNat = 12 + s.length.toNat → u.inLen.toNat ≤ u.caps.ibuf → j < 12 + s.length.toNat →
    Memory.read u.ibuf j = some b → Memory.read t.obuf (s.outLen.toNat + j) ≠ some b →
    (∀ k, k < 12 + s.length.toNat → k ≠ j → Memory.read u.ibuf k = Memory.read t.obuf (s.outLen.toNat + k)) →
    (4 ≤ j → j < 8 → ¬ IsLetter b →
      exec .chunkParse u = .next { u with errCode := .invalidChunkType, errSticky := true }) ∧
    (8 ≤ j ∨ (4 ≤ j ∧ IsLetter b) → ∃ v, exec .chunkParse u = .next v ∧ v.errCode = .invalidChecksum) ∧
    (∀ len : Word, j < 4 → Holds u.ibuf 0 (be32bytes len) → s.length.toNat < len.toNat →
      exec .chunkParse u = .next { u with errCode := .unexpectedEof, errSticky := true }) ∧
    (∀ len : Word, j < 4 → Holds u.ibuf 0 (be32bytes len) → len.toNat < s.length.toNat →
      ∃ v, exec .chunkParse u = .next v ∧
        ((v.crcRx ≠ v.crcCalc ∧ v.errCode = .invalidChecksum) ∨
         (v.crcRx = v.crcCalc ∧ v.errCode = .success ∧ v.inPos.toNat = 12 + len.toNat)))

/-! ## Frames -/

/-- Derived (R41, R103 to R106, R126 to R128, R74, R145): the commands that store nothing leave every buffer byte and
every register alone but those their rules name. -/
def Obligations.RegisterCommandsFrame : Prop :=
  ∀ (i : Instr) (s t : State), i ≠ .chunkParse → i ≠ .chunkSerialize → exec i s = .next t →
    (∀ b k, Memory.read (t.buf b) k = Memory.read (s.buf b) k) ∧
    t.tag = s.tag ∧ t.tagB = s.tagB ∧ t.length = s.length ∧ t.crcRx = s.crcRx ∧ t.crcCalc = s.crcCalc ∧
    t.inLen = s.inLen ∧ t.inPos = s.inPos ∧ t.outLen = s.outLen ∧ t.caps = s.caps ∧
    t.inflight = s.inflight ∧ t.resetLine = s.resetLine ∧ t.port = s.port ∧ t.reply = s.reply ∧
    t.madeInReset = s.madeInReset ∧ (isGeneratorCommand i = false → t.crcState = s.crcState) ∧ (i ≠ .tagCmp → t.cmp = s.cmp) ∧
    (i ≠ .chunkNew → t.crc = s.crc ∧ t.chunkValid = s.chunkValid)

/-- Derived (R151, R152, R182): CHUNK_PARSE stores to DBUF[0..L) alone, L being the big-endian word of IBUF at IN_POS;
it leaves every other buffer byte, and every register its rules do not name, alone. -/
def Obligations.ChunkParseFrame : Prop :=
  ∀ s t : State, exec .chunkParse s = .next t →
    (∀ (len : Word) (k : Nat), Holds s.ibuf s.inPos.toNat (be32bytes len) → len.toNat ≤ k →
      Memory.read t.dbuf k = Memory.read s.dbuf k) ∧
    (t.errCode ≠ .success → ∀ k, Memory.read t.dbuf k = Memory.read s.dbuf k) ∧
    (∀ k, Memory.read t.ibuf k = Memory.read s.ibuf k) ∧ (∀ k, Memory.read t.obuf k = Memory.read s.obuf k) ∧
    t.tagB = s.tagB ∧ t.inLen = s.inLen ∧ t.outLen = s.outLen ∧ t.crcState = s.crcState ∧ t.cmp = s.cmp ∧
    t.caps = s.caps ∧ t.inflight = s.inflight ∧ t.resetLine = s.resetLine ∧ t.port = s.port ∧ t.reply = s.reply ∧
    t.madeInReset = s.madeInReset

/-- Derived (R162, R163, R182): CHUNK_SERIALIZE stores to OBUF[OUT_LEN..OUT_LEN+12+LENGTH) alone; it leaves every other
buffer byte, and every register its rules do not name, alone. -/
def Obligations.ChunkSerializeFrame : Prop :=
  ∀ s t : State, exec .chunkSerialize s = .next t →
    (∀ k, k < s.outLen.toNat ∨ s.outLen.toNat + 12 + s.length.toNat ≤ k →
      Memory.read t.obuf k = Memory.read s.obuf k) ∧
    (t.errCode ≠ .success → ∀ k, Memory.read t.obuf k = Memory.read s.obuf k) ∧
    (∀ k, Memory.read t.ibuf k = Memory.read s.ibuf k) ∧ (∀ k, Memory.read t.dbuf k = Memory.read s.dbuf k) ∧
    t.tag = s.tag ∧ t.tagB = s.tagB ∧ t.length = s.length ∧ t.inLen = s.inLen ∧ t.inPos = s.inPos ∧
    t.crcRx = s.crcRx ∧ t.crcCalc = s.crcCalc ∧ t.crcState = s.crcState ∧ t.cmp = s.cmp ∧
    t.caps = s.caps ∧ t.inflight = s.inflight ∧ t.resetLine = s.resetLine ∧ t.port = s.port ∧ t.reply = s.reply ∧
    t.madeInReset = s.madeInReset

/-! ## How commands end (60_exceptions.md) -/

/-- R182: the whole effect of a command that ends with an error code: ERRCODE, ERR_STICKY, and for a CHUNK_PARSE that
reached its checksum test CRC_RX and CRC_CALC; nothing else changes. -/
def Obligations.FailingCommandChangesOnlyStatus : Prop :=
  ∀ (i : Instr) (s t : State), exec i s = .next t → t.errCode ≠ .success →
    t = { s with errCode := t.errCode, errSticky := true, crcRx := t.crcRx, crcCalc := t.crcCalc } ∧
    (¬ (i = .chunkParse ∧ t.errCode = .invalidChecksum) → t.crcRx = s.crcRx ∧ t.crcCalc = s.crcCalc) ∧
    (i = .chunkParse → t.errCode = .invalidChecksum → ∃ len tag data rx, FramedAt s len tag data rx ∧
      t.crcRx = rx ∧ t.crcCalc = crc32 (be32bytes tag ++ data))

/-- Derived (R183): a command that raises no error leaves ERR_STICKY as it was; and only a command, reset aside, ever
changes ERRCODE, so that it describes the most recent command. -/
def Obligations.SucceedingCommandKeepsSticky : Prop :=
  (∀ (i : Instr) (s t : State), exec i s = .next t → t.errCode = .success → t.errSticky = s.errSticky) ∧
  (∀ s t : State, step s = .next t → s.resetLine = false → (∀ w, ¬ Due s w) → t.errCode = s.errCode)

/-- Derived (R181): the codes' numbers, and which codes each command can end with. -/
def Obligations.EachCommandReportsItsOwnCodes : Prop :=
  (∀ (i : Instr) (s t : State), exec i s = .next t → t.errCode ∈ allowedCodes i) ∧
  [ErrCode.success, .invalidBytes, .invalidLength, .invalidCharacter, .invalidChunkType, .unexpectedEof,
    .invalidChecksum, .bufferOverflow, .rangeError, .illegalCommand].map ErrCode.code = [0, 1, 2, 3, 4, 5, 6, 7, 8, 9]

/-- Derived (R39, R69, R188): no command is refused, and one stops only at a buffer byte that holds no value, at an index
inside the buffer. -/
def Obligations.CommandsStopOnlyAtUnwrittenBytes : Prop :=
  ∀ (i : Instr) (s : State), (∃ t, exec i s = .next t) ∨
    ∃ b k, exec i s = .fault (.unwrittenByte b k) ∧ k < bufSize s.caps b ∧ Memory.read (s.buf b) k = none

/-- Derived (R40, R61): a command neither sees nor changes what waits at the port, the last answer, the reset input or
an access made during reset. -/
def Obligations.CommandsIgnoreTheHostPort : Prop :=
  ∀ (i : Instr) (s : State) (port : List Request) (reply : Option Reply) (line : Bool)
    (made : Option Access),
    exec i { s with port := port, reply := reply, resetLine := line, madeInReset := made } =
      mapNext (fun t => { t with port := port, reply := reply, resetLine := line, madeInReset := made }) (exec i s)

/-! ## The machine's step (20_memory.md, 60_exceptions.md) -/

/-- Derived (R73, R180): where a command is due, the step runs the decoded command on the state and lets BUSY fall. -/
def Obligations.StepRunsTheDecodedCommand : Prop :=
  ∀ (s : State) (w : Word), Due s w →
    step s = mapNext (fun t => { t with inflight := none }) (exec (decode w) s) ∧
    ∀ i : Instr, i.wf = true → w = encode i →
      step s = mapNext (fun t => { t with inflight := none }) (exec i s)

/-- Derived (R61; log 3, log 11, log 12): while a command has turns left, a STATUS read at the head of the queue is
answered with BUSY = 1; any other access stays and nothing but the count of turns changes; and the command's own step
leaves the queue as it was. -/
def Obligations.AccessesAreHeldWhileBusy : Prop :=
  (∀ (s : State) (w : Word) (n d : Nat) (rest : List Request), Released s →
    s.inflight = some ⟨w, n + 1⟩ → s.port = ⟨.read 0x04 4, d⟩ :: rest →
    step s = .next { s with
      inflight := some ⟨w, n⟩, port := rest, reply := some (.word (s.readReg .status)) } ∧
    (s.readReg .status).getLsbD 0 = true) ∧
  (∀ (s : State) (w : Word) (n : Nat), Released s → s.inflight = some ⟨w, n + 1⟩ →
    (∀ d, s.port.head? ≠ some ⟨.read 0x04 4, d⟩) → step s = .next { s with inflight := some ⟨w, n⟩ }) ∧
  (∀ (s t : State) (w : Word), Due s w → step s = .next t →
    t.inflight = none ∧ t.port = s.port ∧ t.reply = s.reply)

/-- Derived (R180, R206; log 3): a command with `d` host turns left has ended `d + 1` steps later: the run stops at an
unwritten byte or comes to a state that is not busy; it is never refused. -/
def Obligations.EveryCommandEnds : Prop :=
  ∀ (s : State) (w : Word) (d : Nat), Released s → s.inflight = some ⟨w, d⟩ →
    (∃ t : State, runSteps (d + 1) s = .next t ∧ t.inflight = none) ∨
    (∃ b k, runSteps (d + 1) s = .fault (Fault.unwrittenByte b k))

/-- R54, R55, R185: an access of a wrong width, misaligned or unmapped is a fault that names it, and a legal access never
is. The capacities are within R5, so each buffer fits its window. -/
def Obligations.IllegalAccessesAreBusErrors : Prop :=
  ∀ (s : State) (a : Access) (d : Nat) (rest : List Request), s.caps.Legal → AtPort s a d rest →
    (¬ LegalAccess s.caps a.offset a.width → step s = .fault (.busError a)) ∧
    (LegalAccess s.caps a.offset a.width → ∀ e, step s ≠ .fault (.busError e))

/-- R56: a read of each register's offset answers its value and changes nothing else. -/
def Obligations.RegisterReadsAnswerTheirValues : Prop :=
  ∀ (s : State) (d : Nat) (rest : List Request) (off value : Word),
    (off, value) ∈ [((0x00 : Word), (0 : Word)), (0x04, statusWord s), (0x08, s.tag), (0x0C, s.tagB),
      (0x10, tagFlags s.tag), (0x14, s.length), (0x18, s.crc), (0x1C, s.crcRx), (0x20, s.crcCalc),
      (0x24, s.crcState), (0x28, s.crcState ^^^ 0xFFFF_FFFF), (0x2C, s.inLen), (0x30, s.inPos), (0x34, s.outLen),
      (0x38, BitVec.ofNat 32 s.caps.ibuf), (0x3C, BitVec.ofNat 32 s.caps.dbuf),
      (0x40, BitVec.ofNat 32 s.caps.obuf)] →
    AtPort s (.read off 4) d rest → step s = .next { s with port := rest, reply := some (.word value) }

/-- R57: the effect of a write to each register's offset: CMD, STATUS, the seven writable registers, and the eight that
ignore it. -/
def Obligations.RegisterWritesHaveTheirEffects : Prop :=
  ∀ (s : State) (v off : Word) (d : Nat) (rest : List Request) (t : State),
    (off, t) ∈ [((0x00 : Word), { s with inflight := some ⟨v, d⟩ }),
      (0x04, { s with errSticky := s.errSticky && !v.getLsbD 2 }),
      (0x08, { s with tag := v, chunkValid := false }), (0x0C, { s with tagB := v }), (0x10, s),
      (0x14, { s with length := v, chunkValid := false }), (0x18, s), (0x1C, s), (0x20, s),
      (0x24, { s with crcState := v }), (0x28, s), (0x2C, { s with inLen := v }), (0x30, { s with inPos := v }),
      (0x34, { s with outLen := v }), (0x38, s), (0x3C, s), (0x40, s)] →
    AtPort s (.write off 4 v) d rest → step s = .next { t with port := rest, reply := some .written }

/-- Derived (R58; log 9): host accesses to buffer bytes: a read answers the byte, a write stores it and no other byte, and
a write to DBUF clears CHUNK_VALID at every index; a read of a byte that holds no value is a fault. That a one-byte write
carries 32 bits and stores the low 8 of them is the model's choice (log 9). -/
def Obligations.BufferAccessesReachTheirByte : Prop :=
  ∀ (s : State) (b : Buf) (base i d : Nat) (rest : List Request), s.caps.Legal →
    (b, base) ∈ [(Buf.ibuf, 0x0100_0000), (.dbuf, 0x0200_0000), (.obuf, 0x0300_0000)] → i < bufSize s.caps b →
    (AtPort s (.read (BitVec.ofNat 32 (base + i)) 1) d rest →
      (∀ x, Memory.read (s.buf b) i = some x → step s = .next { s with port := rest, reply := some (.byte x) }) ∧
      (Memory.read (s.buf b) i = none → step s = .fault (.unwrittenByte b i))) ∧
    (∀ v : Word, AtPort s (.write (BitVec.ofNat 32 (base + i)) 1 v) d rest →
      ∃ t, step s = .next t ∧ Memory.read (t.buf b) i = some (v.setWidth 8) ∧
        (∀ c k, (c, k) ≠ (b, i) → Memory.read (t.buf c) k = Memory.read (s.buf c) k) ∧
        t = { s with
          ibuf := t.ibuf, dbuf := t.dbuf, obuf := t.obuf, port := rest, reply := some .written,
          chunkValid := s.chunkValid && b != .dbuf })

/-- Derived (R24): every bit of the STATUS word; a host write clears ERR_STICKY where its bit 2 is 1 and does nothing
else; and a command that ends with an error code sets ERR_STICKY. -/
def Obligations.StatusBitsAreTheirFields : Prop :=
  (∀ s : State, ∀ v, v = s.readReg .status →
    (v.getLsbD 0 = true ↔ ∃ c, s.inflight = some c) ∧ v.getLsbD 1 = false ∧ v.getLsbD 2 = s.errSticky ∧
    v.getLsbD 3 = s.chunkValid ∧ v.extractLsb' 4 4 = s.errCode.code ∧ v.extractLsb' 8 2 = s.cmp.code ∧
    v.extractLsb' 10 22 = 0) ∧
  (∀ (s : State) (v : Word) (d : Nat) (rest : List Request), AtPort s (.write 0x04 4 v) d rest →
    step s = .next { s with
      errSticky := if v.getLsbD 2 = true then false else s.errSticky, port := rest, reply := some .written }) ∧
  (∀ (i : Instr) (s t : State), exec i s = .next t → t.errCode ≠ .success → t.errSticky = true)

/-! ## Whole-machine rules and the invariant -/

/-- R42: every register reads its reset value right after reset, no buffer byte holds a value, and no command is in
progress. IBUF_CAP, DBUF_CAP and OBUF_CAP read the capacities (R36). -/
def Obligations.ResetValues : Prop :=
  (∀ (r : Reg) (v : Word), (r, v) ∈ [(Reg.cmd, (0 : Word)), (.status, 0), (.tag, 0), (.tagB, 0),
      (.tagflags, 0x0000_0700), (.length, 0), (.crc, 0), (.crcRx, 0), (.crcCalc, 0), (.crcState, 0xFFFF_FFFF),
      (.crcValue, 0), (.inLen, 0), (.inPos, 0), (.outLen, 0), (.ibufCap, BitVec.ofNat 32 Config.caps.ibuf),
      (.dbufCap, BitVec.ofNat 32 Config.caps.dbuf), (.obufCap, BitVec.ofNat 32 Config.caps.obuf)] →
    State.reset.readReg r = v) ∧
  (∀ b k, Memory.read (State.reset.buf b) k = none) ∧ State.reset.inflight = none

/-- Derived (R200; log 7): when reset is applied, in whatever state, the command in progress is abandoned and none is
pending: no write to CMD made before it is left at the port, and however long the block runs on, no command starts
unless the host makes a further access. Every register takes its reset value and no buffer byte holds a value; the
capacities stay. So it is when the host applies reset, on a pulse that no step sees, and at every step taken while it
is applied; a step without an access to refuse is never held up. While it is applied the block stays in its reset
state, whatever the host does. That a pulse of any length resets is the model's choice (log 7). -/
def Obligations.ResetRestoresTheResetState : Prop :=
  (∀ s t : State,
    (t = s.driveReset true ∨ t = (s.driveReset true).driveReset false ∨ (s.resetLine = true ∧ step s = .next t)) →
    t.inflight = none ∧ (∀ (v : Word) (d : Nat), ⟨.write 0x00 4 v, d⟩ ∉ t.port) ∧
      (∀ u, Reaches t u → u.inflight = none) ∧ t.caps = s.caps ∧
      (∀ r : Reg, r ≠ .ibufCap → r ≠ .dbufCap → r ≠ .obufCap → t.readReg r = State.reset.readReg r) ∧
      (∀ b k, Memory.read (t.buf b) k = none)) ∧
  (∀ s : State, s.resetLine = true → s.madeInReset = none → ∃ t, step s = .next t ∧ t.resetLine = true) ∧
  (∀ s t : State, step s = .next t ∨ HostActs s t → s.ResetInv → t.ResetInv)

/-- Derived (R201; log 7): an access made while reset is applied is refused, by name, at the next step, whatever the host
does before that step: releases reset, applies it again, makes more accesses. No other access is refused: nothing but
an access made while reset is applied marks one, and a step refuses where one is marked and nowhere else. -/
def Obligations.AccessDuringResetIsRefused : Prop :=
  (∀ (s t : State) (a : Access) (d : Nat), s.resetLine = true → s.madeInReset = none →
    HostActs (s.present a d) t → step t = .refused (.accessDuringReset a)) ∧
  (∀ (s : State) (a : Access) (d : Nat), s.resetLine = false →
    (s.present a d).madeInReset = s.madeInReset ∧ (s.present a d).port = s.port ++ [⟨a, d⟩]) ∧
  (∀ (s : State) (line : Bool), (s.driveReset line).madeInReset = s.madeInReset) ∧
  (∀ s t : State, step s = .next t → t.madeInReset = none) ∧
  (∀ (s : State) (e : Refusal), step s = .refused e ↔ ∃ a, s.madeInReset = some a ∧ e = .accessDuringReset a)

/-- Derived (R201; log 7, log 19): after reset the first host access sees the reset state: where reset was applied and
released with no access made meanwhile, the block is the one right after reset but for the accesses made before reset
that outlast it, and the first access in order of arrival is performed on the reset state. No command outlasts it
(R200); which other held accesses do is a free value (log 19), and the statement holds whatever it is. -/
def Obligations.FirstAccessAfterResetSeesTheResetState : Prop :=
  ∀ s t : State, s.madeInReset = none → t = (s.driveReset true).driveReset false →
    t = { State.resetWith s.caps with port := s.port.filter Request.outlastsReset } ∧
    ∀ (a : Access) (d : Nat) (q : Request) (rest : List Request), (t.present a d).port = q :: rest →
      (s.port = [] → q = ⟨a, d⟩) ∧
      step (t.present a d) = performAccess q.access q.delay { State.resetWith s.caps with port := rest }

/-- Derived (R5, R37, R39): the state after reset meets the invariant, and so do its capacities whatever the
implementation chose. -/
def Obligations.ResetMeetsTheInvariant : Prop :=
  State.reset.Inv

/-- Derived (R5, R37, R38, R69): every step keeps the invariant: capacities within R5, every buffer canonical and inside
its size, and while CHUNK_VALID = 1 a chunk whose crc is computed from TAG, LENGTH and DBUF. -/
def Obligations.StepKeepsTheInvariant : Prop :=
  ∀ s t : State, s.Inv → step s = .next t → t.Inv

/-- Derived (R36, R37, R64): the invariant holds in every state a run reaches from a state that meets it, with the same
capacities; and the host keeps both, whatever it presents and whenever it drives the reset input. -/
def Obligations.HostAndStepsKeepTheInvariant : Prop :=
  (∀ s t : State, s.Inv → Reaches s t → t.Inv ∧ t.caps = s.caps) ∧
  (∀ (s : State) (a : Access) (d : Nat) (line : Bool), s.Inv →
    ((s.present a d).Inv ∧ (s.present a d).caps = s.caps) ∧
    ((s.driveReset line).Inv ∧ (s.driveReset line).caps = s.caps))

/-- Derived (R37): CHUNK_VALID becomes 1 only when CHUNK_NEW, CHUNK_PARSE or CHUNK_SERIALIZE succeeds, and becomes 0
only on reset or on a host write to TAG, to LENGTH or to a byte of DBUF. -/
def Obligations.ChunkValidChangesOnlyAsStated : Prop :=
  (∀ s t : State, step s = .next t → s.chunkValid = false → t.chunkValid = true →
    ∃ w, Due s w ∧ isChunkCommand (decode w) = true ∧ t.errCode = .success) ∧
  (∀ s t : State, step s = .next t → s.chunkValid = true → t.chunkValid = false →
    s.resetLine = true ∨
    ∃ off v width d rest, AtPort s (.write off width v) d rest ∧
      ((width = 4 ∧ (off = 0x08 ∨ off = 0x14)) ∨
       (width = 1 ∧ ∃ i, i < s.caps.dbuf ∧ off.toNat = 0x0200_0000 + i)))

/-- Derived (R24, R31): ERR_STICKY is cleared only by a host write to STATUS with bit 2 = 1, or by reset; CRC_STATE
changes only by a generator command, by a host write to its register, or by reset. -/
def Obligations.StickyAndCrcStateChangeOnlyAsStated : Prop :=
  (∀ s t : State, step s = .next t → s.errSticky = true → t.errSticky = false →
    s.resetLine = true ∨
    ∃ (v : Word) (d : Nat) (rest : List Request), AtPort s (.write 0x04 4 v) d rest ∧ v.getLsbD 2 = true) ∧
  (∀ s t : State, step s = .next t → t.crcState ≠ s.crcState →
    s.resetLine = true ∨ (∃ w, Due s w ∧ isGeneratorCommand (decode w) = true) ∨
    ∃ (v : Word) (d : Nat) (rest : List Request), AtPort s (.write 0x24 4 v) d rest ∧ t.crcState = v)

/-- Derived (R38, R163): IBUF changes only by host writes to its own bytes, or by reset; and CHUNK_SERIALIZE is the only
command that writes OBUF, CHUNK_PARSE the only one that writes DBUF. -/
def Obligations.BuffersAreWrittenOnlyAsStated : Prop :=
  (∀ s t : State, step s = .next t → t.ibuf ≠ s.ibuf → s.resetLine = true ∨
    ∃ off v d rest i, AtPort s (.write off 1 v) d rest ∧ i < s.caps.ibuf ∧ off.toNat = 0x0100_0000 + i) ∧
  (∀ (i : Instr) (s t : State), exec i s = .next t → t.ibuf = s.ibuf ∧
    (i ≠ .chunkParse → t.dbuf = s.dbuf) ∧ (i ≠ .chunkSerialize → t.obuf = s.obuf))

/-- Derived (R77; log 16): WAIT on an empty queue ends after at most one poll more than the command has turns left: in a
state that is not busy, the last poll having said so, or at the unwritten byte where the command stops. -/
def Obligations.WaitEndsWhenTheCommandDoes : Prop :=
  ∀ (s : State) (w : Word) (n : Nat), Released s → s.inflight = some ⟨w, n⟩ → s.port = [] →
    (∃ t : State, waitIdle (n + 1) s = .next t ∧ t.inflight = none ∧ t.sawIdle = true ∧ t.port = []) ∨
    (∃ b k, waitIdle (n + 1) s = .fault (.unwrittenByte b k))

/-- Derived (R77): LDDATA leaves its bytes in DBUF from index 0 and their count in LENGTH, and LDIN leaves its bytes in
IBUF, their count in IN_LEN and 0 in IN_POS, one step an access. -/
def Obligations.LoadPseudoInstructionsLoadTheirBytes : Prop :=
  ∀ (s : State) (bs : List Byte), s.caps.Legal → Released s → s.inflight = none →
    (bs.length ≤ s.caps.dbuf → s.port = (ldData bs).map (⟨·, 0⟩) →
      ∃ t : State, runSteps (bs.length + 1) s = .next t ∧ t.port = [] ∧ Holds t.dbuf 0 bs ∧
        t.length.toNat = bs.length ∧ t.chunkValid = false) ∧
    (bs.length ≤ s.caps.ibuf → s.port = (ldIn bs).map (⟨·, 0⟩) →
      ∃ t : State, runSteps (bs.length + 2) s = .next t ∧ t.port = [] ∧ Holds t.ibuf 0 bs ∧
        t.inLen.toNat = bs.length ∧ t.inPos = 0)
end

