-- ==== Sys2Proof/Laws/Memory.lean ====
section
/-! SUPPORT. The laws of the buffers: a read after a write, what a write leaves alone, ranges, and that every memory
operation keeps the canonical form and the size of a buffer. -/

namespace Sys2Proof.Machine

@[simp] theorem Memory.read_nil (i : Nat) : Memory.read [] i = none := rfl

@[simp] theorem Memory.readRange_zero (m : Memory) (i : Nat) : Memory.readRange m i 0 = .ok [] := rfl

@[simp] theorem Memory.writeRange_nil (m : Memory) (i : Nat) : Memory.writeRange m i [] = m := rfl

theorem Memory.read_of_lt_all {m : Memory} {i : Nat} (h : ∀ x ∈ m, i < x.1) : Memory.read m i = none := by
  induction m with
  | nil => rfl
  | cons x m ih =>
    obtain ⟨k, b⟩ := x
    have hk : i < k := h (k, b) (by simp)
    have : k ≠ i := by omega
    simp only [Memory.read, this, if_false]
    exact ih fun y hy => h y (by simp [hy])

theorem Memory.read_write_same (m : Memory) (i : Nat) (v : Byte) :
    Memory.read (Memory.write m i v) i = some v := by
  induction m with
  | nil => simp [Memory.write, Memory.read]
  | cons x m ih =>
    obtain ⟨k, b⟩ := x
    simp only [Memory.write]
    split
    · simp [Memory.read]
    · split
      · simp [Memory.read]
      · have : k ≠ i := by omega
        simp [Memory.read, this, ih]

theorem Memory.read_write_other (m : Memory) {i j : Nat} (v : Byte) (h : j ≠ i) :
    Memory.read (Memory.write m i v) j = Memory.read m j := by
  induction m with
  | nil => simp [Memory.write, Memory.read, h.symm]
  | cons x m ih =>
    obtain ⟨k, b⟩ := x
    simp only [Memory.write]
    split
    · simp [Memory.read, h.symm]
    · split
      · subst_vars; simp [Memory.read, h.symm]
      · simp [Memory.read, ih]

theorem Memory.mem_write {m : Memory} {i : Nat} {v : Byte} {x : Host.Cell} (h : x ∈ Memory.write m i v) :
    x ∈ m ∨ x = (i, v) := by
  induction m with
  | nil => simpa [Memory.write] using h
  | cons y m ih =>
    obtain ⟨k, b⟩ := y
    simp only [Memory.write] at h
    split at h
    · simp only [List.mem_cons] at h ⊢; tauto
    · split at h
      · simp only [List.mem_cons] at h ⊢; tauto
      · simp only [List.mem_cons] at h ⊢
        rcases h with h | h
        · exact .inl (.inl h)
        · rcases ih h with h | h <;> tauto

/-- A write keeps the canonical form. -/
theorem Memory.wf_write {m : Memory} (h : Memory.wf m) (i : Nat) (v : Byte) : Memory.wf (Memory.write m i v) := by
  induction m with
  | nil => simp [Memory.wf, Memory.write]
  | cons x m ih =>
    obtain ⟨k, b⟩ := x
    have hc := List.pairwise_cons.1 h
    simp only [Memory.write]
    split
    · rename_i hlt
      refine List.pairwise_cons.2 ⟨?_, h⟩
      intro y hy
      rcases List.mem_cons.1 hy with rfl | hy
      · exact hlt
      · exact Nat.lt_trans hlt (hc.1 y hy)
    · split
      · subst_vars; exact List.pairwise_cons.2 ⟨hc.1, hc.2⟩
      · refine List.pairwise_cons.2 ⟨?_, ih hc.2⟩
        intro y hy
        rcases Memory.mem_write hy with hy | rfl
        · exact hc.1 y hy
        · show k < i; omega

/-- A write inside a buffer keeps it inside its size. -/
theorem Memory.within_write {m : Memory} {n i : Nat} (h : Memory.within m n) (hi : i < n) (v : Byte) :
    Memory.within (Memory.write m i v) n := by
  intro x hx
  rcases Memory.mem_write hx with hx | rfl
  · exact h x hx
  · exact hi

/-- A range write keeps the canonical form. -/
theorem Memory.wf_writeRange {m : Memory} (h : Memory.wf m) (i : Nat) (bs : List Byte) :
    Memory.wf (Memory.writeRange m i bs) := by
  induction bs generalizing m i with
  | nil => exact h
  | cons b bs ih => exact ih (Memory.wf_write h i b) (i + 1)

/-- A range write inside a buffer keeps it inside its size. -/
theorem Memory.within_writeRange {m : Memory} {n i : Nat} {bs : List Byte} (h : Memory.within m n)
    (hi : i + bs.length ≤ n) : Memory.within (Memory.writeRange m i bs) n := by
  induction bs generalizing m i with
  | nil => exact h
  | cons b bs ih =>
    simp only [List.length_cons] at hi
    exact ih (Memory.within_write h (by omega) b) (by omega)

/-- A range write leaves every index outside the range alone. -/
theorem Memory.read_writeRange_outside (m : Memory) {i j : Nat} {bs : List Byte}
    (h : j < i ∨ i + bs.length ≤ j) : Memory.read (Memory.writeRange m i bs) j = Memory.read m j := by
  induction bs generalizing m i with
  | nil => rfl
  | cons b bs ih =>
    simp only [List.length_cons] at h
    simp only [Memory.writeRange]
    rw [ih _ (by omega), Memory.read_write_other _ _ (by omega)]

/-- A range write leaves its bytes in order from its first index on. -/
theorem Memory.read_writeRange_inside (m : Memory) {i k : Nat} {bs : List Byte} (h : k < bs.length) :
    Memory.read (Memory.writeRange m i bs) (i + k) = some bs[k] := by
  induction bs generalizing m i k with
  | nil => simp at h
  | cons b bs ih =>
    simp only [Memory.writeRange]
    cases k with
    | zero =>
      rw [Memory.read_writeRange_outside _ (by omega)]
      simpa using Memory.read_write_same m i b
    | succ k =>
      have := ih (Memory.write m i b) (i := i + 1) (k := k) (by simpa using h)
      rw [show i + (k + 1) = i + 1 + k by omega, this]
      simp

/-- What a range read answers: `n` bytes, each the one read at its index. -/
theorem Memory.readRange_eq_ok {m : Memory} {i n : Nat} {bs : List Byte} :
    Memory.readRange m i n = .ok bs ↔
      bs.length = n ∧ ∀ k, (h : k < bs.length) → Memory.read m (i + k) = some bs[k] := by
  induction n generalizing i bs with
  | zero =>
    simp only [Memory.readRange, Except.ok.injEq]
    constructor
    · rintro rfl; simp
    · rintro ⟨h, -⟩; exact (List.length_eq_zero_iff.1 h).symm
  | succ n ih =>
    simp only [Memory.readRange]
    cases hb : Memory.read m i with
    | none =>
      simp only [reduceCtorEq, false_iff]
      rintro ⟨hl, h⟩
      have := h 0 (by omega)
      simp [hb] at this
    | some b =>
      simp only
      cases hr : Memory.readRange m (i + 1) n with
      | error j =>
        simp only [reduceCtorEq, false_iff]
        rintro ⟨hl, h⟩
        cases bs with
        | nil => simp at hl
        | cons c cs =>
          have : Memory.readRange m (i + 1) n = .ok cs := ih.2 ⟨by simpa using hl, fun k hk => by
            have := h (k + 1) (by simpa using hk)
            rw [show i + 1 + k = i + (k + 1) by omega, this]; simp⟩
          simp [hr] at this
      | ok cs =>
        obtain ⟨hl, h⟩ := ih.1 hr
        simp only [Except.ok.injEq]
        constructor
        · rintro rfl
          refine ⟨by simpa using hl, fun k hk => ?_⟩
          cases k with
          | zero => simpa using hb
          | succ k =>
            have := h k (by simpa using hk)
            rw [show i + (k + 1) = i + 1 + k by omega, this]; simp
        · rintro ⟨hl', h'⟩
          refine List.ext_getElem (by simp [hl, hl']) fun k h1 h2 => ?_
          have e := h' k h2
          cases k with
          | zero => simpa [hb] using e
          | succ k =>
            have := h k (by simpa using h1)
            rw [show i + (k + 1) = i + 1 + k by omega, this] at e
            simpa using e

theorem Memory.length_of_readRange {m : Memory} {i n : Nat} {bs : List Byte}
    (h : Memory.readRange m i n = .ok bs) : bs.length = n := (Memory.readRange_eq_ok.1 h).1

/-- A range read depends on the bytes of its range alone. -/
theorem Memory.readRange_congr {m m' : Memory} {i n : Nat}
    (h : ∀ j, i ≤ j → j < i + n → Memory.read m j = Memory.read m' j) :
    Memory.readRange m i n = Memory.readRange m' i n := by
  induction n generalizing i with
  | zero => rfl
  | succ n ih =>
    simp only [Memory.readRange]
    rw [h i (by omega) (by omega), ih fun j h1 h2 => h j (by omega) (by omega)]

/-- A range read of what a range write wrote gives it back. -/
theorem Memory.readRange_writeRange (m : Memory) (i : Nat) (bs : List Byte) :
    Memory.readRange (Memory.writeRange m i bs) i bs.length = .ok bs :=
  Memory.readRange_eq_ok.2 ⟨rfl, fun _ h => Memory.read_writeRange_inside m h⟩

/-- A range read fails at the first index of the range that holds no value (R39). -/
theorem Memory.readRange_eq_error {m : Memory} {i n j : Nat} (h : Memory.readRange m i n = .error j) :
    i ≤ j ∧ j < i + n ∧ Memory.read m j = none ∧ ∀ k, i ≤ k → k < j → Memory.read m k ≠ none := by
  induction n generalizing i with
  | zero => simp [Memory.readRange] at h
  | succ n ih =>
    simp only [Memory.readRange] at h
    split at h
    · cases h; exact ⟨Nat.le_refl _, by omega, by assumption, fun k h1 h2 => by omega⟩
    · rename_i b hb
      split at h
      · cases h
      · cases h
        obtain ⟨h1, h2, h3, h4⟩ := ih (by assumption)
        refine ⟨by omega, by omega, h3, fun k hk1 hk2 => ?_⟩
        by_cases hk : k = i
        · subst hk; simp [hb]
        · exact h4 k (by omega) hk2

/-- Where the first index without a value is known, a range read fails there (R39). -/
theorem Memory.readRange_error_of_first {m : Memory} {i n j : Nat} (h1 : i ≤ j) (h2 : j < i + n)
    (h3 : Memory.read m j = none) (h4 : ∀ k, i ≤ k → k < j → Memory.read m k ≠ none) :
    Memory.readRange m i n = .error j := by
  cases h : Memory.readRange m i n with
  | ok bs =>
    obtain ⟨l, hh⟩ := Memory.readRange_eq_ok.1 h
    have := hh (j - i) (by omega)
    rw [show i + (j - i) = j by omega, h3] at this
    cases this
  | error k =>
    obtain ⟨g1, g2, g3, g4⟩ := Memory.readRange_eq_error h
    rcases Nat.lt_trichotomy j k with h | h | h
    · exact absurd h3 (g4 j h1 h)
    · rw [h]
    · exact absurd g3 (h4 k g1 h)

/-- A range is the range of its first part followed by the rest. -/
theorem Memory.readRange_append {m : Memory} {i n k : Nat} {xs ys : List Byte}
    (hx : Memory.readRange m i n = .ok xs) (hy : Memory.readRange m (i + n) k = .ok ys) :
    Memory.readRange m i (n + k) = .ok (xs ++ ys) := by
  obtain ⟨lx, hx⟩ := Memory.readRange_eq_ok.1 hx
  obtain ⟨ly, hy⟩ := Memory.readRange_eq_ok.1 hy
  refine Memory.readRange_eq_ok.2 ⟨by simp [lx, ly], fun j hj => ?_⟩
  by_cases h : j < xs.length
  · rw [List.getElem_append_left h]; exact hx j h
  · rw [List.getElem_append_right (by omega)]
    have := hy (j - xs.length) (by simp at hj; omega)
    rw [← this, lx]
    congr 1
    omega

/-- The parts of a range are ranges. -/
theorem Memory.readRange_split {m : Memory} {i n k : Nat} {xs ys : List Byte} (hl : xs.length = n)
    (h : Memory.readRange m i (n + k) = .ok (xs ++ ys)) :
    Memory.readRange m i n = .ok xs ∧ Memory.readRange m (i + n) k = .ok ys := by
  obtain ⟨l, h⟩ := Memory.readRange_eq_ok.1 h
  simp only [List.length_append] at l h
  constructor
  · refine Memory.readRange_eq_ok.2 ⟨hl, fun j hj => ?_⟩
    have := h j (by omega)
    rwa [List.getElem_append_left hj] at this
  · refine Memory.readRange_eq_ok.2 ⟨by omega, fun j hj => ?_⟩
    have := h (n + j) (by omega)
    rw [List.getElem_append_right (by omega)] at this
    rw [show i + n + j = i + (n + j) by omega, this]
    congr 2
    omega

/-- Two range writes in a row are one. -/
theorem Memory.writeRange_append (m : Memory) (i : Nat) (xs ys : List Byte) :
    Memory.writeRange m i (xs ++ ys) = Memory.writeRange (Memory.writeRange m i xs) (i + xs.length) ys := by
  induction xs generalizing m i with
  | nil => rfl
  | cons x xs ih =>
    simp only [List.cons_append, Memory.writeRange, List.length_cons]
    rw [ih, show i + 1 + xs.length = i + (xs.length + 1) by omega]

/-- The buffers of a block right after reset are in canonical form and inside any size: they list nothing (R39). -/
theorem resetWith_bufs (c : Caps) (b : Buf) (n : Nat) :
    Memory.wf ((State.resetWith c).buf b) ∧ Memory.within ((State.resetWith c).buf b) n := by
  cases b <;> exact ⟨List.Pairwise.nil, fun _ hx => absurd hx (by simp [State.buf, State.resetWith])⟩

end Sys2Proof.Machine
end

