-- ==== Sys2Proof/Laws/State.lean ====
section
/-! SUPPORT. One lemma per field per named update of State: what the field holds after it, each true by rfl, so that
no later proof unfolds a record update; and what reset and an arriving access do to the whole state. -/

namespace Sys2Proof.Machine

variable (s : State)

/-! ## State.raise -/

@[simp] theorem State.raise_errSticky (e : ErrCode) : (s.raise e).errSticky = true := rfl
@[simp] theorem State.raise_chunkValid (e : ErrCode) : (s.raise e).chunkValid = s.chunkValid := rfl
@[simp] theorem State.raise_errCode (e : ErrCode) : (s.raise e).errCode = e := rfl
@[simp] theorem State.raise_cmp (e : ErrCode) : (s.raise e).cmp = s.cmp := rfl
@[simp] theorem State.raise_tag (e : ErrCode) : (s.raise e).tag = s.tag := rfl
@[simp] theorem State.raise_tagB (e : ErrCode) : (s.raise e).tagB = s.tagB := rfl
@[simp] theorem State.raise_length (e : ErrCode) : (s.raise e).length = s.length := rfl
@[simp] theorem State.raise_crc (e : ErrCode) : (s.raise e).crc = s.crc := rfl
@[simp] theorem State.raise_crcRx (e : ErrCode) : (s.raise e).crcRx = s.crcRx := rfl
@[simp] theorem State.raise_crcCalc (e : ErrCode) : (s.raise e).crcCalc = s.crcCalc := rfl
@[simp] theorem State.raise_crcState (e : ErrCode) : (s.raise e).crcState = s.crcState := rfl
@[simp] theorem State.raise_inLen (e : ErrCode) : (s.raise e).inLen = s.inLen := rfl
@[simp] theorem State.raise_inPos (e : ErrCode) : (s.raise e).inPos = s.inPos := rfl
@[simp] theorem State.raise_outLen (e : ErrCode) : (s.raise e).outLen = s.outLen := rfl
@[simp] theorem State.raise_caps (e : ErrCode) : (s.raise e).caps = s.caps := rfl
@[simp] theorem State.raise_ibuf (e : ErrCode) : (s.raise e).ibuf = s.ibuf := rfl
@[simp] theorem State.raise_dbuf (e : ErrCode) : (s.raise e).dbuf = s.dbuf := rfl
@[simp] theorem State.raise_obuf (e : ErrCode) : (s.raise e).obuf = s.obuf := rfl
@[simp] theorem State.raise_inflight (e : ErrCode) : (s.raise e).inflight = s.inflight := rfl
@[simp] theorem State.raise_resetLine (e : ErrCode) : (s.raise e).resetLine = s.resetLine := rfl
@[simp] theorem State.raise_port (e : ErrCode) : (s.raise e).port = s.port := rfl
@[simp] theorem State.raise_reply (e : ErrCode) : (s.raise e).reply = s.reply := rfl
@[simp] theorem State.raise_madeInReset (e : ErrCode) : (s.raise e).madeInReset = s.madeInReset := rfl

/-! ## State.complete -/

@[simp] theorem State.complete_errSticky : (s.complete).errSticky = s.errSticky := rfl
@[simp] theorem State.complete_chunkValid : (s.complete).chunkValid = s.chunkValid := rfl
@[simp] theorem State.complete_errCode : (s.complete).errCode = ErrCode.success := rfl
@[simp] theorem State.complete_cmp : (s.complete).cmp = s.cmp := rfl
@[simp] theorem State.complete_tag : (s.complete).tag = s.tag := rfl
@[simp] theorem State.complete_tagB : (s.complete).tagB = s.tagB := rfl
@[simp] theorem State.complete_length : (s.complete).length = s.length := rfl
@[simp] theorem State.complete_crc : (s.complete).crc = s.crc := rfl
@[simp] theorem State.complete_crcRx : (s.complete).crcRx = s.crcRx := rfl
@[simp] theorem State.complete_crcCalc : (s.complete).crcCalc = s.crcCalc := rfl
@[simp] theorem State.complete_crcState : (s.complete).crcState = s.crcState := rfl
@[simp] theorem State.complete_inLen : (s.complete).inLen = s.inLen := rfl
@[simp] theorem State.complete_inPos : (s.complete).inPos = s.inPos := rfl
@[simp] theorem State.complete_outLen : (s.complete).outLen = s.outLen := rfl
@[simp] theorem State.complete_caps : (s.complete).caps = s.caps := rfl
@[simp] theorem State.complete_ibuf : (s.complete).ibuf = s.ibuf := rfl
@[simp] theorem State.complete_dbuf : (s.complete).dbuf = s.dbuf := rfl
@[simp] theorem State.complete_obuf : (s.complete).obuf = s.obuf := rfl
@[simp] theorem State.complete_inflight : (s.complete).inflight = s.inflight := rfl
@[simp] theorem State.complete_resetLine : (s.complete).resetLine = s.resetLine := rfl
@[simp] theorem State.complete_port : (s.complete).port = s.port := rfl
@[simp] theorem State.complete_reply : (s.complete).reply = s.reply := rfl
@[simp] theorem State.complete_madeInReset : (s.complete).madeInReset = s.madeInReset := rfl

/-! ## State.putCrcState -/

@[simp] theorem State.putCrcState_errSticky (c : Word) : (s.putCrcState c).errSticky = s.errSticky := rfl
@[simp] theorem State.putCrcState_chunkValid (c : Word) : (s.putCrcState c).chunkValid = s.chunkValid := rfl
@[simp] theorem State.putCrcState_errCode (c : Word) : (s.putCrcState c).errCode = s.errCode := rfl
@[simp] theorem State.putCrcState_cmp (c : Word) : (s.putCrcState c).cmp = s.cmp := rfl
@[simp] theorem State.putCrcState_tag (c : Word) : (s.putCrcState c).tag = s.tag := rfl
@[simp] theorem State.putCrcState_tagB (c : Word) : (s.putCrcState c).tagB = s.tagB := rfl
@[simp] theorem State.putCrcState_length (c : Word) : (s.putCrcState c).length = s.length := rfl
@[simp] theorem State.putCrcState_crc (c : Word) : (s.putCrcState c).crc = s.crc := rfl
@[simp] theorem State.putCrcState_crcRx (c : Word) : (s.putCrcState c).crcRx = s.crcRx := rfl
@[simp] theorem State.putCrcState_crcCalc (c : Word) : (s.putCrcState c).crcCalc = s.crcCalc := rfl
@[simp] theorem State.putCrcState_crcState (c : Word) : (s.putCrcState c).crcState = c := rfl
@[simp] theorem State.putCrcState_inLen (c : Word) : (s.putCrcState c).inLen = s.inLen := rfl
@[simp] theorem State.putCrcState_inPos (c : Word) : (s.putCrcState c).inPos = s.inPos := rfl
@[simp] theorem State.putCrcState_outLen (c : Word) : (s.putCrcState c).outLen = s.outLen := rfl
@[simp] theorem State.putCrcState_caps (c : Word) : (s.putCrcState c).caps = s.caps := rfl
@[simp] theorem State.putCrcState_ibuf (c : Word) : (s.putCrcState c).ibuf = s.ibuf := rfl
@[simp] theorem State.putCrcState_dbuf (c : Word) : (s.putCrcState c).dbuf = s.dbuf := rfl
@[simp] theorem State.putCrcState_obuf (c : Word) : (s.putCrcState c).obuf = s.obuf := rfl
@[simp] theorem State.putCrcState_inflight (c : Word) : (s.putCrcState c).inflight = s.inflight := rfl
@[simp] theorem State.putCrcState_resetLine (c : Word) : (s.putCrcState c).resetLine = s.resetLine := rfl
@[simp] theorem State.putCrcState_port (c : Word) : (s.putCrcState c).port = s.port := rfl
@[simp] theorem State.putCrcState_reply (c : Word) : (s.putCrcState c).reply = s.reply := rfl
@[simp] theorem State.putCrcState_madeInReset (c : Word) : (s.putCrcState c).madeInReset = s.madeInReset := rfl

/-! ## State.putCmp -/

@[simp] theorem State.putCmp_errSticky (c : Cmp) : (s.putCmp c).errSticky = s.errSticky := rfl
@[simp] theorem State.putCmp_chunkValid (c : Cmp) : (s.putCmp c).chunkValid = s.chunkValid := rfl
@[simp] theorem State.putCmp_errCode (c : Cmp) : (s.putCmp c).errCode = s.errCode := rfl
@[simp] theorem State.putCmp_cmp (c : Cmp) : (s.putCmp c).cmp = c := rfl
@[simp] theorem State.putCmp_tag (c : Cmp) : (s.putCmp c).tag = s.tag := rfl
@[simp] theorem State.putCmp_tagB (c : Cmp) : (s.putCmp c).tagB = s.tagB := rfl
@[simp] theorem State.putCmp_length (c : Cmp) : (s.putCmp c).length = s.length := rfl
@[simp] theorem State.putCmp_crc (c : Cmp) : (s.putCmp c).crc = s.crc := rfl
@[simp] theorem State.putCmp_crcRx (c : Cmp) : (s.putCmp c).crcRx = s.crcRx := rfl
@[simp] theorem State.putCmp_crcCalc (c : Cmp) : (s.putCmp c).crcCalc = s.crcCalc := rfl
@[simp] theorem State.putCmp_crcState (c : Cmp) : (s.putCmp c).crcState = s.crcState := rfl
@[simp] theorem State.putCmp_inLen (c : Cmp) : (s.putCmp c).inLen = s.inLen := rfl
@[simp] theorem State.putCmp_inPos (c : Cmp) : (s.putCmp c).inPos = s.inPos := rfl
@[simp] theorem State.putCmp_outLen (c : Cmp) : (s.putCmp c).outLen = s.outLen := rfl
@[simp] theorem State.putCmp_caps (c : Cmp) : (s.putCmp c).caps = s.caps := rfl
@[simp] theorem State.putCmp_ibuf (c : Cmp) : (s.putCmp c).ibuf = s.ibuf := rfl
@[simp] theorem State.putCmp_dbuf (c : Cmp) : (s.putCmp c).dbuf = s.dbuf := rfl
@[simp] theorem State.putCmp_obuf (c : Cmp) : (s.putCmp c).obuf = s.obuf := rfl
@[simp] theorem State.putCmp_inflight (c : Cmp) : (s.putCmp c).inflight = s.inflight := rfl
@[simp] theorem State.putCmp_resetLine (c : Cmp) : (s.putCmp c).resetLine = s.resetLine := rfl
@[simp] theorem State.putCmp_port (c : Cmp) : (s.putCmp c).port = s.port := rfl
@[simp] theorem State.putCmp_reply (c : Cmp) : (s.putCmp c).reply = s.reply := rfl
@[simp] theorem State.putCmp_madeInReset (c : Cmp) : (s.putCmp c).madeInReset = s.madeInReset := rfl

/-! ## State.putDiagnostics -/

@[simp] theorem State.putDiagnostics_errSticky (rx sum : Word) :
    (s.putDiagnostics rx sum).errSticky = s.errSticky := rfl
@[simp] theorem State.putDiagnostics_chunkValid (rx sum : Word) :
    (s.putDiagnostics rx sum).chunkValid = s.chunkValid := rfl
@[simp] theorem State.putDiagnostics_errCode (rx sum : Word) : (s.putDiagnostics rx sum).errCode = s.errCode := rfl
@[simp] theorem State.putDiagnostics_cmp (rx sum : Word) : (s.putDiagnostics rx sum).cmp = s.cmp := rfl
@[simp] theorem State.putDiagnostics_tag (rx sum : Word) : (s.putDiagnostics rx sum).tag = s.tag := rfl
@[simp] theorem State.putDiagnostics_tagB (rx sum : Word) : (s.putDiagnostics rx sum).tagB = s.tagB := rfl
@[simp] theorem State.putDiagnostics_length (rx sum : Word) : (s.putDiagnostics rx sum).length = s.length := rfl
@[simp] theorem State.putDiagnostics_crc (rx sum : Word) : (s.putDiagnostics rx sum).crc = s.crc := rfl
@[simp] theorem State.putDiagnostics_crcRx (rx sum : Word) : (s.putDiagnostics rx sum).crcRx = rx := rfl
@[simp] theorem State.putDiagnostics_crcCalc (rx sum : Word) : (s.putDiagnostics rx sum).crcCalc = sum := rfl
@[simp] theorem State.putDiagnostics_crcState (rx sum : Word) : (s.putDiagnostics rx sum).crcState = s.crcState := rfl
@[simp] theorem State.putDiagnostics_inLen (rx sum : Word) : (s.putDiagnostics rx sum).inLen = s.inLen := rfl
@[simp] theorem State.putDiagnostics_inPos (rx sum : Word) : (s.putDiagnostics rx sum).inPos = s.inPos := rfl
@[simp] theorem State.putDiagnostics_outLen (rx sum : Word) : (s.putDiagnostics rx sum).outLen = s.outLen := rfl
@[simp] theorem State.putDiagnostics_caps (rx sum : Word) : (s.putDiagnostics rx sum).caps = s.caps := rfl
@[simp] theorem State.putDiagnostics_ibuf (rx sum : Word) : (s.putDiagnostics rx sum).ibuf = s.ibuf := rfl
@[simp] theorem State.putDiagnostics_dbuf (rx sum : Word) : (s.putDiagnostics rx sum).dbuf = s.dbuf := rfl
@[simp] theorem State.putDiagnostics_obuf (rx sum : Word) : (s.putDiagnostics rx sum).obuf = s.obuf := rfl
@[simp] theorem State.putDiagnostics_inflight (rx sum : Word) : (s.putDiagnostics rx sum).inflight = s.inflight := rfl
@[simp] theorem State.putDiagnostics_resetLine (rx sum : Word) :
    (s.putDiagnostics rx sum).resetLine = s.resetLine := rfl
@[simp] theorem State.putDiagnostics_port (rx sum : Word) : (s.putDiagnostics rx sum).port = s.port := rfl
@[simp] theorem State.putDiagnostics_reply (rx sum : Word) : (s.putDiagnostics rx sum).reply = s.reply := rfl
@[simp] theorem State.putDiagnostics_madeInReset (rx sum : Word) :
    (s.putDiagnostics rx sum).madeInReset = s.madeInReset := rfl

/-! ## State.commitNew -/

@[simp] theorem State.commitNew_errSticky (d : List Byte) : (s.commitNew d).errSticky = s.errSticky := rfl
@[simp] theorem State.commitNew_chunkValid (d : List Byte) : (s.commitNew d).chunkValid = true := rfl
@[simp] theorem State.commitNew_errCode (d : List Byte) : (s.commitNew d).errCode = s.errCode := rfl
@[simp] theorem State.commitNew_cmp (d : List Byte) : (s.commitNew d).cmp = s.cmp := rfl
@[simp] theorem State.commitNew_tag (d : List Byte) : (s.commitNew d).tag = s.tag := rfl
@[simp] theorem State.commitNew_tagB (d : List Byte) : (s.commitNew d).tagB = s.tagB := rfl
@[simp] theorem State.commitNew_length (d : List Byte) : (s.commitNew d).length = s.length := rfl
@[simp] theorem State.commitNew_crc (d : List Byte) : (s.commitNew d).crc = chunkCrc s.tag d := rfl
@[simp] theorem State.commitNew_crcRx (d : List Byte) : (s.commitNew d).crcRx = s.crcRx := rfl
@[simp] theorem State.commitNew_crcCalc (d : List Byte) : (s.commitNew d).crcCalc = s.crcCalc := rfl
@[simp] theorem State.commitNew_crcState (d : List Byte) : (s.commitNew d).crcState = s.crcState := rfl
@[simp] theorem State.commitNew_inLen (d : List Byte) : (s.commitNew d).inLen = s.inLen := rfl
@[simp] theorem State.commitNew_inPos (d : List Byte) : (s.commitNew d).inPos = s.inPos := rfl
@[simp] theorem State.commitNew_outLen (d : List Byte) : (s.commitNew d).outLen = s.outLen := rfl
@[simp] theorem State.commitNew_caps (d : List Byte) : (s.commitNew d).caps = s.caps := rfl
@[simp] theorem State.commitNew_ibuf (d : List Byte) : (s.commitNew d).ibuf = s.ibuf := rfl
@[simp] theorem State.commitNew_dbuf (d : List Byte) : (s.commitNew d).dbuf = s.dbuf := rfl
@[simp] theorem State.commitNew_obuf (d : List Byte) : (s.commitNew d).obuf = s.obuf := rfl
@[simp] theorem State.commitNew_inflight (d : List Byte) : (s.commitNew d).inflight = s.inflight := rfl
@[simp] theorem State.commitNew_resetLine (d : List Byte) : (s.commitNew d).resetLine = s.resetLine := rfl
@[simp] theorem State.commitNew_port (d : List Byte) : (s.commitNew d).port = s.port := rfl
@[simp] theorem State.commitNew_reply (d : List Byte) : (s.commitNew d).reply = s.reply := rfl
@[simp] theorem State.commitNew_madeInReset (d : List Byte) : (s.commitNew d).madeInReset = s.madeInReset := rfl

/-! ## State.commitParse -/

@[simp] theorem State.commitParse_errSticky (p : Nat) (len tag : Word) (d : List Byte) (sum : Word) :
    (s.commitParse p len tag d sum).errSticky = s.errSticky := rfl
@[simp] theorem State.commitParse_chunkValid (p : Nat) (len tag : Word) (d : List Byte) (sum : Word) :
    (s.commitParse p len tag d sum).chunkValid = true := rfl
@[simp] theorem State.commitParse_errCode (p : Nat) (len tag : Word) (d : List Byte) (sum : Word) :
    (s.commitParse p len tag d sum).errCode = s.errCode := rfl
@[simp] theorem State.commitParse_cmp (p : Nat) (len tag : Word) (d : List Byte) (sum : Word) :
    (s.commitParse p len tag d sum).cmp = s.cmp := rfl
@[simp] theorem State.commitParse_tag (p : Nat) (len tag : Word) (d : List Byte) (sum : Word) :
    (s.commitParse p len tag d sum).tag = tag := rfl
@[simp] theorem State.commitParse_tagB (p : Nat) (len tag : Word) (d : List Byte) (sum : Word) :
    (s.commitParse p len tag d sum).tagB = s.tagB := rfl
@[simp] theorem State.commitParse_length (p : Nat) (len tag : Word) (d : List Byte) (sum : Word) :
    (s.commitParse p len tag d sum).length = len := rfl
@[simp] theorem State.commitParse_crc (p : Nat) (len tag : Word) (d : List Byte) (sum : Word) :
    (s.commitParse p len tag d sum).crc = sum := rfl
@[simp] theorem State.commitParse_crcRx (p : Nat) (len tag : Word) (d : List Byte) (sum : Word) :
    (s.commitParse p len tag d sum).crcRx = s.crcRx := rfl
@[simp] theorem State.commitParse_crcCalc (p : Nat) (len tag : Word) (d : List Byte) (sum : Word) :
    (s.commitParse p len tag d sum).crcCalc = s.crcCalc := rfl
@[simp] theorem State.commitParse_crcState (p : Nat) (len tag : Word) (d : List Byte) (sum : Word) :
    (s.commitParse p len tag d sum).crcState = s.crcState := rfl
@[simp] theorem State.commitParse_inLen (p : Nat) (len tag : Word) (d : List Byte) (sum : Word) :
    (s.commitParse p len tag d sum).inLen = s.inLen := rfl
@[simp] theorem State.commitParse_inPos (p : Nat) (len tag : Word) (d : List Byte) (sum : Word) :
    (s.commitParse p len tag d sum).inPos = BitVec.ofNat 32 (p + 12 + len.toNat) := rfl
@[simp] theorem State.commitParse_outLen (p : Nat) (len tag : Word) (d : List Byte) (sum : Word) :
    (s.commitParse p len tag d sum).outLen = s.outLen := rfl
@[simp] theorem State.commitParse_caps (p : Nat) (len tag : Word) (d : List Byte) (sum : Word) :
    (s.commitParse p len tag d sum).caps = s.caps := rfl
@[simp] theorem State.commitParse_ibuf (p : Nat) (len tag : Word) (d : List Byte) (sum : Word) :
    (s.commitParse p len tag d sum).ibuf = s.ibuf := rfl
@[simp] theorem State.commitParse_dbuf (p : Nat) (len tag : Word) (d : List Byte) (sum : Word) :
    (s.commitParse p len tag d sum).dbuf = Memory.writeRange s.dbuf 0 d := rfl
@[simp] theorem State.commitParse_obuf (p : Nat) (len tag : Word) (d : List Byte) (sum : Word) :
    (s.commitParse p len tag d sum).obuf = s.obuf := rfl
@[simp] theorem State.commitParse_inflight (p : Nat) (len tag : Word) (d : List Byte) (sum : Word) :
    (s.commitParse p len tag d sum).inflight = s.inflight := rfl
@[simp] theorem State.commitParse_resetLine (p : Nat) (len tag : Word) (d : List Byte) (sum : Word) :
    (s.commitParse p len tag d sum).resetLine = s.resetLine := rfl
@[simp] theorem State.commitParse_port (p : Nat) (len tag : Word) (d : List Byte) (sum : Word) :
    (s.commitParse p len tag d sum).port = s.port := rfl
@[simp] theorem State.commitParse_reply (p : Nat) (len tag : Word) (d : List Byte) (sum : Word) :
    (s.commitParse p len tag d sum).reply = s.reply := rfl
@[simp] theorem State.commitParse_madeInReset (p : Nat) (len tag : Word) (d : List Byte) (sum : Word) :
    (s.commitParse p len tag d sum).madeInReset = s.madeInReset := rfl

/-! ## State.commitSerialize -/

@[simp] theorem State.commitSerialize_errSticky (d : List Byte) : (s.commitSerialize d).errSticky = s.errSticky := rfl
@[simp] theorem State.commitSerialize_chunkValid (d : List Byte) : (s.commitSerialize d).chunkValid = true := rfl
@[simp] theorem State.commitSerialize_errCode (d : List Byte) : (s.commitSerialize d).errCode = s.errCode := rfl
@[simp] theorem State.commitSerialize_cmp (d : List Byte) : (s.commitSerialize d).cmp = s.cmp := rfl
@[simp] theorem State.commitSerialize_tag (d : List Byte) : (s.commitSerialize d).tag = s.tag := rfl
@[simp] theorem State.commitSerialize_tagB (d : List Byte) : (s.commitSerialize d).tagB = s.tagB := rfl
@[simp] theorem State.commitSerialize_length (d : List Byte) : (s.commitSerialize d).length = s.length := rfl
@[simp] theorem State.commitSerialize_crc (d : List Byte) : (s.commitSerialize d).crc = chunkCrc s.tag d := rfl
@[simp] theorem State.commitSerialize_crcRx (d : List Byte) : (s.commitSerialize d).crcRx = s.crcRx := rfl
@[simp] theorem State.commitSerialize_crcCalc (d : List Byte) : (s.commitSerialize d).crcCalc = s.crcCalc := rfl
@[simp] theorem State.commitSerialize_crcState (d : List Byte) : (s.commitSerialize d).crcState = s.crcState := rfl
@[simp] theorem State.commitSerialize_inLen (d : List Byte) : (s.commitSerialize d).inLen = s.inLen := rfl
@[simp] theorem State.commitSerialize_inPos (d : List Byte) : (s.commitSerialize d).inPos = s.inPos := rfl
@[simp] theorem State.commitSerialize_outLen (d : List Byte) :
    (s.commitSerialize d).outLen = BitVec.ofNat 32 (s.outLen.toNat + 12 + s.length.toNat) := rfl
@[simp] theorem State.commitSerialize_caps (d : List Byte) : (s.commitSerialize d).caps = s.caps := rfl
@[simp] theorem State.commitSerialize_ibuf (d : List Byte) : (s.commitSerialize d).ibuf = s.ibuf := rfl
@[simp] theorem State.commitSerialize_dbuf (d : List Byte) : (s.commitSerialize d).dbuf = s.dbuf := rfl
@[simp] theorem State.commitSerialize_obuf (d : List Byte) :
    (s.commitSerialize d).obuf = Memory.writeRange s.obuf s.outLen.toNat (serialize s.tag s.length d) := rfl
@[simp] theorem State.commitSerialize_inflight (d : List Byte) : (s.commitSerialize d).inflight = s.inflight := rfl
@[simp] theorem State.commitSerialize_resetLine (d : List Byte) : (s.commitSerialize d).resetLine = s.resetLine := rfl
@[simp] theorem State.commitSerialize_port (d : List Byte) : (s.commitSerialize d).port = s.port := rfl
@[simp] theorem State.commitSerialize_reply (d : List Byte) : (s.commitSerialize d).reply = s.reply := rfl
@[simp] theorem State.commitSerialize_madeInReset (d : List Byte) :
    (s.commitSerialize d).madeInReset = s.madeInReset := rfl

/-! ## State.start -/

@[simp] theorem State.start_errSticky (w : Word) (n : Nat) : (s.start w n).errSticky = s.errSticky := rfl
@[simp] theorem State.start_chunkValid (w : Word) (n : Nat) : (s.start w n).chunkValid = s.chunkValid := rfl
@[simp] theorem State.start_errCode (w : Word) (n : Nat) : (s.start w n).errCode = s.errCode := rfl
@[simp] theorem State.start_cmp (w : Word) (n : Nat) : (s.start w n).cmp = s.cmp := rfl
@[simp] theorem State.start_tag (w : Word) (n : Nat) : (s.start w n).tag = s.tag := rfl
@[simp] theorem State.start_tagB (w : Word) (n : Nat) : (s.start w n).tagB = s.tagB := rfl
@[simp] theorem State.start_length (w : Word) (n : Nat) : (s.start w n).length = s.length := rfl
@[simp] theorem State.start_crc (w : Word) (n : Nat) : (s.start w n).crc = s.crc := rfl
@[simp] theorem State.start_crcRx (w : Word) (n : Nat) : (s.start w n).crcRx = s.crcRx := rfl
@[simp] theorem State.start_crcCalc (w : Word) (n : Nat) : (s.start w n).crcCalc = s.crcCalc := rfl
@[simp] theorem State.start_crcState (w : Word) (n : Nat) : (s.start w n).crcState = s.crcState := rfl
@[simp] theorem State.start_inLen (w : Word) (n : Nat) : (s.start w n).inLen = s.inLen := rfl
@[simp] theorem State.start_inPos (w : Word) (n : Nat) : (s.start w n).inPos = s.inPos := rfl
@[simp] theorem State.start_outLen (w : Word) (n : Nat) : (s.start w n).outLen = s.outLen := rfl
@[simp] theorem State.start_caps (w : Word) (n : Nat) : (s.start w n).caps = s.caps := rfl
@[simp] theorem State.start_ibuf (w : Word) (n : Nat) : (s.start w n).ibuf = s.ibuf := rfl
@[simp] theorem State.start_dbuf (w : Word) (n : Nat) : (s.start w n).dbuf = s.dbuf := rfl
@[simp] theorem State.start_obuf (w : Word) (n : Nat) : (s.start w n).obuf = s.obuf := rfl
@[simp] theorem State.start_inflight (w : Word) (n : Nat) : (s.start w n).inflight = some ⟨w, n⟩ := rfl
@[simp] theorem State.start_resetLine (w : Word) (n : Nat) : (s.start w n).resetLine = s.resetLine := rfl
@[simp] theorem State.start_port (w : Word) (n : Nat) : (s.start w n).port = s.port := rfl
@[simp] theorem State.start_reply (w : Word) (n : Nat) : (s.start w n).reply = s.reply := rfl
@[simp] theorem State.start_madeInReset (w : Word) (n : Nat) : (s.start w n).madeInReset = s.madeInReset := rfl

/-! ## State.finish -/

@[simp] theorem State.finish_errSticky : (s.finish).errSticky = s.errSticky := rfl
@[simp] theorem State.finish_chunkValid : (s.finish).chunkValid = s.chunkValid := rfl
@[simp] theorem State.finish_errCode : (s.finish).errCode = s.errCode := rfl
@[simp] theorem State.finish_cmp : (s.finish).cmp = s.cmp := rfl
@[simp] theorem State.finish_tag : (s.finish).tag = s.tag := rfl
@[simp] theorem State.finish_tagB : (s.finish).tagB = s.tagB := rfl
@[simp] theorem State.finish_length : (s.finish).length = s.length := rfl
@[simp] theorem State.finish_crc : (s.finish).crc = s.crc := rfl
@[simp] theorem State.finish_crcRx : (s.finish).crcRx = s.crcRx := rfl
@[simp] theorem State.finish_crcCalc : (s.finish).crcCalc = s.crcCalc := rfl
@[simp] theorem State.finish_crcState : (s.finish).crcState = s.crcState := rfl
@[simp] theorem State.finish_inLen : (s.finish).inLen = s.inLen := rfl
@[simp] theorem State.finish_inPos : (s.finish).inPos = s.inPos := rfl
@[simp] theorem State.finish_outLen : (s.finish).outLen = s.outLen := rfl
@[simp] theorem State.finish_caps : (s.finish).caps = s.caps := rfl
@[simp] theorem State.finish_ibuf : (s.finish).ibuf = s.ibuf := rfl
@[simp] theorem State.finish_dbuf : (s.finish).dbuf = s.dbuf := rfl
@[simp] theorem State.finish_obuf : (s.finish).obuf = s.obuf := rfl
@[simp] theorem State.finish_inflight : (s.finish).inflight = none := rfl
@[simp] theorem State.finish_resetLine : (s.finish).resetLine = s.resetLine := rfl
@[simp] theorem State.finish_port : (s.finish).port = s.port := rfl
@[simp] theorem State.finish_reply : (s.finish).reply = s.reply := rfl
@[simp] theorem State.finish_madeInReset : (s.finish).madeInReset = s.madeInReset := rfl

/-! ## State.answer -/

@[simp] theorem State.answer_errSticky (r : Reply) : (s.answer r).errSticky = s.errSticky := rfl
@[simp] theorem State.answer_chunkValid (r : Reply) : (s.answer r).chunkValid = s.chunkValid := rfl
@[simp] theorem State.answer_errCode (r : Reply) : (s.answer r).errCode = s.errCode := rfl
@[simp] theorem State.answer_cmp (r : Reply) : (s.answer r).cmp = s.cmp := rfl
@[simp] theorem State.answer_tag (r : Reply) : (s.answer r).tag = s.tag := rfl
@[simp] theorem State.answer_tagB (r : Reply) : (s.answer r).tagB = s.tagB := rfl
@[simp] theorem State.answer_length (r : Reply) : (s.answer r).length = s.length := rfl
@[simp] theorem State.answer_crc (r : Reply) : (s.answer r).crc = s.crc := rfl
@[simp] theorem State.answer_crcRx (r : Reply) : (s.answer r).crcRx = s.crcRx := rfl
@[simp] theorem State.answer_crcCalc (r : Reply) : (s.answer r).crcCalc = s.crcCalc := rfl
@[simp] theorem State.answer_crcState (r : Reply) : (s.answer r).crcState = s.crcState := rfl
@[simp] theorem State.answer_inLen (r : Reply) : (s.answer r).inLen = s.inLen := rfl
@[simp] theorem State.answer_inPos (r : Reply) : (s.answer r).inPos = s.inPos := rfl
@[simp] theorem State.answer_outLen (r : Reply) : (s.answer r).outLen = s.outLen := rfl
@[simp] theorem State.answer_caps (r : Reply) : (s.answer r).caps = s.caps := rfl
@[simp] theorem State.answer_ibuf (r : Reply) : (s.answer r).ibuf = s.ibuf := rfl
@[simp] theorem State.answer_dbuf (r : Reply) : (s.answer r).dbuf = s.dbuf := rfl
@[simp] theorem State.answer_obuf (r : Reply) : (s.answer r).obuf = s.obuf := rfl
@[simp] theorem State.answer_inflight (r : Reply) : (s.answer r).inflight = s.inflight := rfl
@[simp] theorem State.answer_resetLine (r : Reply) : (s.answer r).resetLine = s.resetLine := rfl
@[simp] theorem State.answer_port (r : Reply) : (s.answer r).port = s.port := rfl
@[simp] theorem State.answer_reply (r : Reply) : (s.answer r).reply = some r := rfl
@[simp] theorem State.answer_madeInReset (r : Reply) : (s.answer r).madeInReset = s.madeInReset := rfl

/-! ## State.latch -/

@[simp] theorem State.latch_errSticky (w : Word) : (s.latch w).errSticky = s.errSticky := rfl
@[simp] theorem State.latch_chunkValid (w : Word) : (s.latch w).chunkValid = s.chunkValid := rfl
@[simp] theorem State.latch_errCode (w : Word) : (s.latch w).errCode = s.errCode := rfl
@[simp] theorem State.latch_cmp (w : Word) : (s.latch w).cmp = s.cmp := rfl
@[simp] theorem State.latch_tag (w : Word) : (s.latch w).tag = s.tag := rfl
@[simp] theorem State.latch_tagB (w : Word) : (s.latch w).tagB = s.tagB := rfl
@[simp] theorem State.latch_length (w : Word) : (s.latch w).length = s.length := rfl
@[simp] theorem State.latch_crc (w : Word) : (s.latch w).crc = s.crc := rfl
@[simp] theorem State.latch_crcRx (w : Word) : (s.latch w).crcRx = s.crcRx := rfl
@[simp] theorem State.latch_crcCalc (w : Word) : (s.latch w).crcCalc = s.crcCalc := rfl
@[simp] theorem State.latch_crcState (w : Word) : (s.latch w).crcState = s.crcState := rfl
@[simp] theorem State.latch_inLen (w : Word) : (s.latch w).inLen = s.inLen := rfl
@[simp] theorem State.latch_inPos (w : Word) : (s.latch w).inPos = s.inPos := rfl
@[simp] theorem State.latch_outLen (w : Word) : (s.latch w).outLen = s.outLen := rfl
@[simp] theorem State.latch_caps (w : Word) : (s.latch w).caps = s.caps := rfl
@[simp] theorem State.latch_ibuf (w : Word) : (s.latch w).ibuf = s.ibuf := rfl
@[simp] theorem State.latch_dbuf (w : Word) : (s.latch w).dbuf = s.dbuf := rfl
@[simp] theorem State.latch_obuf (w : Word) : (s.latch w).obuf = s.obuf := rfl
@[simp] theorem State.latch_inflight (w : Word) : (s.latch w).inflight = some ⟨w, 0⟩ := rfl
@[simp] theorem State.latch_resetLine (w : Word) : (s.latch w).resetLine = false := rfl
@[simp] theorem State.latch_port (w : Word) : (s.latch w).port = s.port := rfl
@[simp] theorem State.latch_reply (w : Word) : (s.latch w).reply = s.reply := rfl
@[simp] theorem State.latch_madeInReset (w : Word) : (s.latch w).madeInReset = none := rfl

/-! ## Reset -/

@[simp] theorem State.applyReset_errSticky : s.applyReset.errSticky = false := rfl
@[simp] theorem State.applyReset_chunkValid : s.applyReset.chunkValid = false := rfl
@[simp] theorem State.applyReset_errCode : s.applyReset.errCode = .success := rfl
@[simp] theorem State.applyReset_cmp : s.applyReset.cmp = .equal := rfl
@[simp] theorem State.applyReset_tag : s.applyReset.tag = 0 := rfl
@[simp] theorem State.applyReset_tagB : s.applyReset.tagB = 0 := rfl
@[simp] theorem State.applyReset_length : s.applyReset.length = 0 := rfl
@[simp] theorem State.applyReset_crc : s.applyReset.crc = 0 := rfl
@[simp] theorem State.applyReset_crcRx : s.applyReset.crcRx = 0 := rfl
@[simp] theorem State.applyReset_crcCalc : s.applyReset.crcCalc = 0 := rfl
@[simp] theorem State.applyReset_crcState : s.applyReset.crcState = 0xFFFF_FFFF := rfl
@[simp] theorem State.applyReset_inLen : s.applyReset.inLen = 0 := rfl
@[simp] theorem State.applyReset_inPos : s.applyReset.inPos = 0 := rfl
@[simp] theorem State.applyReset_outLen : s.applyReset.outLen = 0 := rfl
@[simp] theorem State.applyReset_caps : s.applyReset.caps = s.caps := rfl
@[simp] theorem State.applyReset_ibuf : s.applyReset.ibuf = [] := rfl
@[simp] theorem State.applyReset_dbuf : s.applyReset.dbuf = [] := rfl
@[simp] theorem State.applyReset_obuf : s.applyReset.obuf = [] := rfl
@[simp] theorem State.applyReset_inflight : s.applyReset.inflight = none := rfl
@[simp] theorem State.applyReset_resetLine : s.applyReset.resetLine = true := rfl
@[simp] theorem State.applyReset_port : s.applyReset.port = s.port.filter Request.outlastsReset := rfl
@[simp] theorem State.applyReset_reply : s.applyReset.reply = none := rfl
@[simp] theorem State.applyReset_madeInReset : s.applyReset.madeInReset = s.madeInReset := rfl

/-- Applied again, reset changes nothing: its length does not matter (R200). -/
@[simp] theorem State.applyReset_applyReset : s.applyReset.applyReset = s.applyReset := by
  simp [State.applyReset, State.resetWith]

@[simp] theorem State.driveReset_true : s.driveReset true = s.applyReset := rfl

@[simp] theorem State.driveReset_false : s.driveReset false = { s with resetLine := false } := rfl

/-! ## An access arriving, with reset released and with reset applied -/

variable {s}

theorem State.present_released (h : s.resetLine = false) (a : Access) (n : Nat) :
    s.present a n = { s with port := s.port ++ [⟨a, n⟩] } := by
  simp [State.present, h]

theorem State.present_inReset (h : s.resetLine = true) (a : Access) (n : Nat) :
    s.present a n = { s with madeInReset := s.madeInReset <|> some a } := by
  simp [State.present, h]

variable (s)

/-! ## The buffers as fields -/

@[simp] theorem State.buf_ibuf : s.buf .ibuf = s.ibuf := rfl
@[simp] theorem State.buf_dbuf : s.buf .dbuf = s.dbuf := rfl
@[simp] theorem State.buf_obuf : s.buf .obuf = s.obuf := rfl

end Sys2Proof.Machine
end

