-- ==== Sys2Proof/Laws/Words.lean ====
section
/-! SUPPORT. The laws of the operand forms: a word and its four bytes determine each other (R9, R25, R129). -/

namespace Sys2Proof.Machine

/-- The bits of be32: bits 7:0 are the last byte's, bits 31:24 the first's (R9). -/
theorem getLsbD_be32 (a b c d : Byte) (i : Nat) :
    (be32 a b c d).getLsbD i =
      if i < 8 then d.getLsbD i else if i < 16 then c.getLsbD (i - 8)
      else if i < 24 then b.getLsbD (i - 16) else a.getLsbD (i - 24) := by
  have h : (be32 a b c d).getLsbD i = (a ++ b ++ c ++ d).getLsbD i := rfl
  rw [h]
  simp only [BitVec.getLsbD_append]
  split
  · rfl
  · simp only [show i - 8 < 8 ↔ i < 16 by omega]
    split
    · rfl
    · simp only [show i - 8 - 8 = i - 16 by omega,
        show i - 16 - 8 = i - 24 by omega, show i - 16 < 8 ↔ i < 24 by omega]

@[simp] theorem tagByte0_be32 (a b c d : Byte) : tagByte0 (be32 a b c d) = a := by
  apply BitVec.eq_of_getLsbD_eq; intro i hi
  rw [tagByte0, BitVec.getLsbD_extractLsb', getLsbD_be32]
  rw [if_neg (by omega), if_neg (by omega), if_neg (by omega), show 24 + i - 24 = i by omega]
  simp [hi]

@[simp] theorem tagByte1_be32 (a b c d : Byte) : tagByte1 (be32 a b c d) = b := by
  apply BitVec.eq_of_getLsbD_eq; intro i hi
  rw [tagByte1, BitVec.getLsbD_extractLsb', getLsbD_be32]
  rw [if_neg (by omega), if_neg (by omega), if_pos (by omega), show 16 + i - 16 = i by omega]
  simp [hi]

@[simp] theorem tagByte2_be32 (a b c d : Byte) : tagByte2 (be32 a b c d) = c := by
  apply BitVec.eq_of_getLsbD_eq; intro i hi
  rw [tagByte2, BitVec.getLsbD_extractLsb', getLsbD_be32]
  rw [if_neg (by omega), if_pos (by omega), show 8 + i - 8 = i by omega]
  simp [hi]

@[simp] theorem tagByte3_be32 (a b c d : Byte) : tagByte3 (be32 a b c d) = d := by
  apply BitVec.eq_of_getLsbD_eq; intro i hi
  rw [tagByte3, BitVec.getLsbD_extractLsb', getLsbD_be32]
  rw [if_pos (by omega), show 0 + i = i by omega]
  simp [hi]

/-- be32bytes is the inverse of be32 (R9). -/
@[simp] theorem be32bytes_be32 (a b c d : Byte) : be32bytes (be32 a b c d) = [a, b, c, d] := by
  simp [be32bytes]

/-- A word is be32 of its four bytes (R9). -/
@[simp] theorem be32_tagBytes (v : Word) :
    be32 (tagByte0 v) (tagByte1 v) (tagByte2 v) (tagByte3 v) = v := by
  apply BitVec.eq_of_getLsbD_eq; intro i hi
  simp only [getLsbD_be32, tagByte0, tagByte1, tagByte2, tagByte3, BitVec.getLsbD_extractLsb']
  split
  · simp [*]
  · split
    · rw [show 8 + (i - 8) = i by omega]; simp; omega
    · split
      · rw [show 16 + (i - 16) = i by omega]; simp; omega
      · rw [show 24 + (i - 24) = i by omega]; simp; omega

@[simp] theorem be32bytes_length (v : Word) : (be32bytes v).length = 4 := rfl

/-- Equal bytes make equal words (R130). -/
theorem be32bytes_injective {v w : Word} (h : be32bytes v = be32bytes w) : v = w := by
  have e := be32_tagBytes v
  simp only [be32bytes, List.cons.injEq, and_true] at h
  obtain ⟨h0, h1, h2, h3⟩ := h
  rw [h0, h1, h2, h3, be32_tagBytes] at e
  exact e.symm

/-- Four bytes in a row are the bytes of one word. -/
theorem be32bytes_of_length {bs : List Byte} (h : bs.length = 4) : ∃ v, bs = be32bytes v := by
  match bs, h with
  | [a, b, c, d], _ => exact ⟨be32 a b c d, by simp⟩

end Sys2Proof.Machine
end

