-- ==== Sys2Proof/Laws/Commands.lean ====
section
/-! SUPPORT. What each shared operation and each command can do, once: later proofs cite these and unfold no meaning. -/

namespace Sys2Proof.Machine

/-! ## Reading buffers -/

theorem State.withBytes_of_ok {s : State} {b : Buf} {i n : Nat} {bs : List Byte}
    (h : Memory.readRange (s.buf b) i n = .ok bs) (k : List Byte → Result) : s.withBytes b i n k = k bs := by
  simp [State.withBytes, h]

/-- A read of `n` bytes either gets them or stops at an index of the range that holds no value. -/
theorem State.withBytes_cases (s : State) (b : Buf) (i n : Nat) (k : List Byte → Result) :
    (∃ bs, Memory.readRange (s.buf b) i n = .ok bs ∧ s.withBytes b i n k = k bs) ∨
    (∃ j, i ≤ j ∧ j < i + n ∧ Memory.read (s.buf b) j = none ∧ s.withBytes b i n k = .fault (.unwrittenByte b j)) := by
  cases h : Memory.readRange (s.buf b) i n with
  | ok bs => exact .inl ⟨bs, rfl, s.withBytes_of_ok h k⟩
  | error j =>
    have := Memory.readRange_eq_error h
    exact .inr ⟨j, this.1, this.2.1, this.2.2.1, by simp [State.withBytes, h]⟩

theorem State.withWord_of_ok {s : State} {b : Buf} {i : Nat} {v : Word}
    (h : Memory.readRange (s.buf b) i 4 = .ok (be32bytes v)) (k : Word → Result) : s.withWord b i k = k v := by
  obtain ⟨-, h⟩ := Memory.readRange_eq_ok.1 h
  have h0 := h 0 (by simp)
  have h1 := h 1 (by simp)
  have h2 := h 2 (by simp)
  have h3 := h 3 (by simp)
  simp only [be32bytes, Nat.add_zero, List.getElem_cons_zero, List.getElem_cons_succ] at h0 h1 h2 h3
  simp [State.withWord, h0, h1, h2, h3]

/-- A read of a big-endian word either gets it or stops at one of its four bytes that holds no value. -/
theorem State.withWord_cases (s : State) (b : Buf) (i : Nat) (k : Word → Result) :
    (∃ v, Memory.readRange (s.buf b) i 4 = .ok (be32bytes v) ∧ s.withWord b i k = k v) ∨
    (∃ j, i ≤ j ∧ j < i + 4 ∧ Memory.read (s.buf b) j = none ∧ s.withWord b i k = .fault (.unwrittenByte b j)) := by
  cases h0 : Memory.read (s.buf b) i with
  | none => exact .inr ⟨i, by omega, by omega, h0, by simp [State.withWord, h0]⟩
  | some b0 =>
  cases h1 : Memory.read (s.buf b) (i + 1) with
  | none => exact .inr ⟨i + 1, by omega, by omega, h1, by simp [State.withWord, h0, h1]⟩
  | some b1 =>
  cases h2 : Memory.read (s.buf b) (i + 2) with
  | none => exact .inr ⟨i + 2, by omega, by omega, h2, by simp [State.withWord, h0, h1, h2]⟩
  | some b2 =>
  cases h3 : Memory.read (s.buf b) (i + 3) with
  | none => exact .inr ⟨i + 3, by omega, by omega, h3, by simp [State.withWord, h0, h1, h2, h3]⟩
  | some b3 =>
    exact .inl ⟨be32 b0 b1 b2 b3, by simp [Memory.readRange, h0, h1, h2, h3],
      by simp [State.withWord, h0, h1, h2, h3]⟩

/-- A word read stops where one of its four bytes holds no value (R39). -/
theorem State.withWord_fault {s : State} {b : Buf} {i n : Nat} (k : Word → Result) (hn : n < 4)
    (h : Memory.read (s.buf b) (i + n) = none) : ∃ j, s.withWord b i k = .fault (.unwrittenByte b j) := by
  rcases s.withWord_cases b i k with ⟨v, hv, -⟩ | ⟨j, -, -, -, e⟩
  · have := (Memory.readRange_eq_ok.1 hv).2 n (by simpa using hn)
    rw [h] at this
    cases this
  · exact ⟨j, e⟩

/-- A range read stops where one of its bytes holds no value (R39). -/
theorem State.withBytes_fault {s : State} {b : Buf} {i m n : Nat} (k : List Byte → Result) (hn : n < m)
    (h : Memory.read (s.buf b) (i + n) = none) : ∃ j, s.withBytes b i m k = .fault (.unwrittenByte b j) := by
  rcases s.withBytes_cases b i m k with ⟨v, hv, -⟩ | ⟨j, -, -, -, e⟩
  · obtain ⟨l, hv⟩ := Memory.readRange_eq_ok.1 hv
    have := hv n (by omega)
    rw [h] at this
    cases this
  · exact ⟨j, e⟩

/-- A serialized chunk of L data bytes is 12 + L bytes (R140). -/
theorem serialize_length (tag len : Word) (data : List Byte) : (serialize tag len data).length = 12 + data.length := by
  simp [serialize]
  omega

/-- The wire form of a chunk of L data bytes is 12 + L bytes (R140). -/
@[simp] theorem wireChunk_length (c : Word × List Byte) : (wireChunk c).length = 12 + c.2.length := by
  simp [wireChunk]
  omega

/-- What CHUNK_SERIALIZE emits for a chunk is its wire form (R160). -/
theorem wireChunk_eq_serialize {tag len : Word} {data : List Byte} (h : data.length = len.toNat) :
    wireChunk (tag, data) = serialize tag len data := by
  simp [wireChunk, serialize, h, chunkCrc]

/-! ## The commands -/

/-- CRC_DATA (R106). -/
theorem execCrcData_cases {s t : State} (h : execCrcData s = .next t) :
    (s.length.toNat > s.caps.dbuf ∧ t = s.raise .rangeError) ∨
    (s.length.toNat ≤ s.caps.dbuf ∧ ∃ data, Memory.readRange s.dbuf 0 s.length.toNat = .ok data ∧
      t = (s.putCrcState (crcState s.crcState data)).complete) := by
  simp only [execCrcData] at h
  split at h
  · exact .inl ⟨by assumption, by cases h; rfl⟩
  · refine .inr ⟨by omega, ?_⟩
    rcases s.withBytes_cases .dbuf 0 s.length.toNat _ with ⟨bs, hr, e⟩ | ⟨j, -, -, -, e⟩ <;>
      rw [State.withData, e] at h <;> cases h
    exact ⟨bs, hr, rfl⟩

/-- CHUNK_NEW (R145). -/
theorem execChunkNew_cases {s t : State} (h : execChunkNew s = .next t) :
    (s.length.toNat > s.caps.dbuf ∧ t = s.raise .rangeError) ∨
    (s.length.toNat ≤ s.caps.dbuf ∧ tagAlpha s.tag = false ∧ t = s.raise .invalidChunkType) ∨
    (s.length.toNat ≤ s.caps.dbuf ∧ tagAlpha s.tag = true ∧
      ∃ data, Memory.readRange s.dbuf 0 s.length.toNat = .ok data ∧ t = (s.commitNew data).complete) := by
  simp only [execChunkNew] at h
  split at h
  · exact .inl ⟨by assumption, by cases h; rfl⟩
  · split at h
    · exact .inr (.inl ⟨by omega, by simp_all, by cases h; rfl⟩)
    · refine .inr (.inr ⟨by omega, by simp_all, ?_⟩)
      rcases s.withBytes_cases .dbuf 0 s.length.toNat _ with ⟨bs, hr, e⟩ | ⟨j, -, -, -, e⟩ <;>
        rw [State.withData, e] at h <;> cases h
      exact ⟨bs, hr, rfl⟩

/-- CHUNK_SERIALIZE (R161, R162). -/
theorem execChunkSerialize_cases {s t : State} (h : execChunkSerialize s = .next t) :
    ((s.length.toNat > s.caps.dbuf ∨ s.outLen.toNat > s.caps.obuf) ∧ t = s.raise .rangeError) ∨
    (tagAlpha s.tag = false ∧ t = s.raise .invalidChunkType) ∨
    (s.outLen.toNat + 12 + s.length.toNat > s.caps.obuf ∧ t = s.raise .bufferOverflow) ∨
    (s.length.toNat ≤ s.caps.dbuf ∧ s.outLen.toNat + 12 + s.length.toNat ≤ s.caps.obuf ∧ tagAlpha s.tag = true ∧
      ∃ data, Memory.readRange s.dbuf 0 s.length.toNat = .ok data ∧ t = (s.commitSerialize data).complete) := by
  simp only [execChunkSerialize] at h
  split at h
  · exact .inl ⟨by assumption, by cases h; rfl⟩
  · split at h
    · exact .inr (.inl ⟨by simp_all, by cases h; rfl⟩)
    · split at h
      · exact .inr (.inr (.inl ⟨by assumption, by cases h; rfl⟩))
      · refine .inr (.inr (.inr ⟨by omega, by omega, by simp_all, ?_⟩))
        rcases s.withBytes_cases .dbuf 0 s.length.toNat _ with ⟨bs, hr, e⟩ | ⟨j, -, -, -, e⟩ <;>
          rw [State.withData, e] at h <;> cases h
        exact ⟨bs, hr, rfl⟩

/-! ## Holding bytes and reading them -/

/-- A buffer holds bytes exactly where a range read gives them. -/
theorem holds_iff_readRange {m : Memory} {i : Nat} {bs : List Byte} :
    Holds m i bs ↔ Memory.readRange m i bs.length = .ok bs := by
  simp [Memory.readRange_eq_ok, Holds]

theorem holds_of_readRange {m : Memory} {i n : Nat} {bs : List Byte} (h : Memory.readRange m i n = .ok bs) :
    bs.length = n ∧ Holds m i bs := Memory.readRange_eq_ok.1 h

theorem readRange_of_holds {m : Memory} {i n : Nat} {bs : List Byte} (h : Holds m i bs) (hl : bs.length = n) :
    Memory.readRange m i n = .ok bs := Memory.readRange_eq_ok.2 ⟨hl, h⟩

theorem holds_append {m : Memory} {i : Nat} {xs ys : List Byte} :
    Holds m i (xs ++ ys) ↔ Holds m i xs ∧ Holds m (i + xs.length) ys := by
  simp only [holds_iff_readRange, List.length_append]
  exact ⟨Memory.readRange_split rfl, fun h => Memory.readRange_append h.1 h.2⟩

/-- What is held depends on the bytes of the range alone. -/
theorem holds_congr {m m' : Memory} {i i' : Nat} {bs : List Byte}
    (h : ∀ k, k < bs.length → Memory.read m (i + k) = Memory.read m' (i' + k)) (hb : Holds m i bs) :
    Holds m' i' bs := fun k hk => (h k hk).symm.trans (hb k hk)

theorem holds_unique {m : Memory} {i : Nat} {xs ys : List Byte} (hl : xs.length = ys.length) (hx : Holds m i xs)
    (hy : Holds m i ys) : xs = ys :=
  List.ext_getElem hl fun k h1 h2 => by simpa [hx k h1] using hy k h2

theorem holds_word_unique {m : Memory} {i : Nat} {v w : Word} (hv : Holds m i (be32bytes v))
    (hw : Holds m i (be32bytes w)) : v = w := be32bytes_injective (holds_unique rfl hv hw)

theorem holds_writeRange (m : Memory) (i : Nat) (bs : List Byte) : Holds (Memory.writeRange m i bs) i bs :=
  fun _ h => Memory.read_writeRange_inside m h

/-! ## The alphabetic test -/

theorem isAlpha_iff (b : Byte) : isAlpha b = true ↔ IsLetter b := by
  simp [isAlpha, IsLetter, BitVec.le_def]

/-- The test of the commands is the letter test of R120. -/
theorem tagAlpha_iff (t : Word) : tagAlpha t = true ↔ LetterTag t := by
  simp [tagAlpha, isAlpha_iff, LetterTag, tagByte0, tagByte1, tagByte2, tagByte3, and_assoc]

theorem tagAlpha_eq_false_iff (t : Word) : tagAlpha t = false ↔ ¬ LetterTag t := by
  rw [← tagAlpha_iff, Bool.not_eq_true]

/-! ## CHUNK_SERIALIZE -/

/-- CHUNK_SERIALIZE where nothing is wrong (R161, R162). -/
theorem execChunkSerialize_of_ok {s : State} {data : List Byte} (h1 : s.length.toNat ≤ s.caps.dbuf)
    (ht : tagAlpha s.tag = true) (h2 : s.outLen.toNat + 12 + s.length.toNat ≤ s.caps.obuf)
    (hl : data.length = s.length.toNat) (hd : Holds s.dbuf 0 data) :
    execChunkSerialize s = .next (s.commitSerialize data).complete := by
  unfold execChunkSerialize
  rw [if_neg (by omega)]
  simp only [ht, Bool.not_true, Bool.false_eq_true, if_false]
  rw [if_neg (by omega), State.withData, State.withBytes_of_ok (b := .dbuf) (readRange_of_holds hd hl)]

/-- What a CHUNK_SERIALIZE that succeeded has done (R162). -/
theorem execChunkSerialize_success {s t : State} (h : execChunkSerialize s = .next t) (he : t.errCode = .success) :
    s.length.toNat ≤ s.caps.dbuf ∧ s.outLen.toNat + 12 + s.length.toNat ≤ s.caps.obuf ∧ tagAlpha s.tag = true ∧
      ∃ data, data.length = s.length.toNat ∧ Holds s.dbuf 0 data ∧ t = (s.commitSerialize data).complete := by
  rcases execChunkSerialize_cases h with ⟨-, rfl⟩ | ⟨-, rfl⟩ | ⟨-, rfl⟩ | ⟨h1, h2, ht, d, hr, rfl⟩ <;>
    try (simp at he; done)
  exact ⟨h1, h2, ht, d, (holds_of_readRange hr).1, (holds_of_readRange hr).2, rfl⟩

/-! ## CHUNK_PARSE -/

/-- The four fields of a framed chunk, each read from its own place (R140). -/
theorem FramedAt.reads {s : State} {len tag rx : Word} {data : List Byte} (h : FramedAt s len tag data rx) :
    Memory.readRange s.ibuf s.inPos.toNat 4 = .ok (be32bytes len) ∧
    Memory.readRange s.ibuf (s.inPos.toNat + 4) 4 = .ok (be32bytes tag) ∧
    Memory.readRange s.ibuf (s.inPos.toNat + 8) len.toNat = .ok data ∧
    Memory.readRange s.ibuf (s.inPos.toNat + 8 + len.toNat) 4 = .ok (be32bytes rx) := by
  have hl := h.data_length
  have hh := h.holds
  simp only [holds_append, List.length_append, be32bytes_length, hl] at hh
  obtain ⟨⟨⟨h1, h2⟩, h3⟩, h4⟩ := hh
  refine ⟨readRange_of_holds h1 rfl, readRange_of_holds h2 rfl, readRange_of_holds h3 hl, ?_⟩
  refine readRange_of_holds ?_ rfl
  rw [show s.inPos.toNat + 8 + len.toNat = s.inPos.toNat + (4 + 4 + len.toNat) by omega]
  exact h4

/-- A framed chunk put together from reads of its fields. -/
theorem FramedAt.of_reads {s : State} {len tag rx : Word} {data : List Byte} (h1 : s.inLen.toNat ≤ s.caps.ibuf)
    (h2 : s.inPos.toNat + 12 + len.toNat ≤ s.inLen.toNat)
    (hlen : Memory.readRange s.ibuf s.inPos.toNat 4 = .ok (be32bytes len))
    (htag : Memory.readRange s.ibuf (s.inPos.toNat + 4) 4 = .ok (be32bytes tag))
    (hdata : Memory.readRange s.ibuf (s.inPos.toNat + 8) len.toNat = .ok data)
    (hrx : Memory.readRange s.ibuf (s.inPos.toNat + 8 + len.toNat) 4 = .ok (be32bytes rx)) :
    FramedAt s len tag data rx := by
  have hl := Memory.length_of_readRange hdata
  refine ⟨h1, h2, hl, ?_⟩
  simp only [holds_append, List.length_append, be32bytes_length, hl]
  refine ⟨⟨⟨(holds_of_readRange hlen).2, (holds_of_readRange htag).2⟩, (holds_of_readRange hdata).2⟩, ?_⟩
  rw [show s.inPos.toNat + (4 + 4 + len.toNat) = s.inPos.toNat + 8 + len.toNat by omega]
  exact (holds_of_readRange hrx).2

theorem parseChecksum_of_reads {s : State} {p : Nat} {len tag rx : Word} {data : List Byte}
    (hd : Memory.readRange s.ibuf (p + 8) len.toNat = .ok data)
    (hr : Memory.readRange s.ibuf (p + 8 + len.toNat) 4 = .ok (be32bytes rx)) :
    parseChecksum p len tag s =
      if rx ≠ chunkCrc tag data then .next ((s.putDiagnostics rx (chunkCrc tag data)).raise .invalidChecksum)
      else .next (((s.putDiagnostics rx (chunkCrc tag data)).commitParse p len tag data (chunkCrc tag data)).complete) := by
  unfold parseChecksum
  rw [State.withWord_of_ok (b := .ibuf) hr, State.withBytes_of_ok (b := .ibuf) hd]

/-- CHUNK_PARSE of a chunk all of whose fields are present and whose type is alphabetic (R151 step 5, R152). -/
theorem execChunkParse_of_framed {s : State} {len tag rx : Word} {data : List Byte} (h : FramedAt s len tag data rx)
    (ha : tagAlpha tag = true) :
    execChunkParse s =
      if rx ≠ chunkCrc tag data then .next ((s.putDiagnostics rx (chunkCrc tag data)).raise .invalidChecksum)
      else .next (((s.putDiagnostics rx (chunkCrc tag data)).commitParse s.inPos.toNat len tag data
        (chunkCrc tag data)).complete) := by
  obtain ⟨h3, h4, h5, h6⟩ := h.reads
  have h1 := h.inLen_le
  have h2 := h.fits
  unfold execChunkParse
  simp only
  rw [if_neg (by omega), if_neg (by omega), State.withWord_of_ok (b := .ibuf) h3, if_neg (by omega),
    State.withWord_of_ok (b := .ibuf) h4]
  simp only [ha, Bool.not_true, Bool.false_eq_true, if_false]
  exact parseChecksum_of_reads h5 h6

/-- CHUNK_PARSE (R151, R152). -/
theorem execChunkParse_cases {s t : State} (h : execChunkParse s = .next t) :
    ((s.inLen.toNat > s.caps.ibuf ∨ s.inPos.toNat > s.inLen.toNat) ∧ t = s.raise .rangeError) ∨
    (s.inPos.toNat ≤ s.inLen.toNat ∧ s.inLen.toNat - s.inPos.toNat < 12 ∧ t = s.raise .unexpectedEof) ∨
    (∃ len, Memory.readRange s.ibuf s.inPos.toNat 4 = .ok (be32bytes len) ∧
      s.inLen.toNat < s.inPos.toNat + 12 + len.toNat ∧ t = s.raise .unexpectedEof) ∨
    (∃ tag, Memory.readRange s.ibuf (s.inPos.toNat + 4) 4 = .ok (be32bytes tag) ∧
      tagAlpha tag = false ∧ t = s.raise .invalidChunkType) ∨
    (∃ len tag data rx, FramedAt s len tag data rx ∧ tagAlpha tag = true ∧
      ((rx ≠ chunkCrc tag data ∧ t = (s.putDiagnostics rx (chunkCrc tag data)).raise .invalidChecksum) ∨
       (rx = chunkCrc tag data ∧ t = ((s.putDiagnostics rx (chunkCrc tag data)).commitParse s.inPos.toNat len tag data
          (chunkCrc tag data)).complete))) := by
  simp only [execChunkParse] at h
  split at h
  · exact .inl ⟨by assumption, by cases h; rfl⟩
  split at h
  · exact .inr (.inl ⟨by omega, by assumption, by cases h; rfl⟩)
  rcases s.withWord_cases .ibuf s.inPos.toNat _ with ⟨len, hlen, e⟩ | ⟨j, -, -, -, e⟩ <;> rw [e] at h
  on_goal 2 => cases h
  split at h
  · exact .inr (.inr (.inl ⟨len, hlen, by omega, by cases h; rfl⟩))
  rcases s.withWord_cases .ibuf (s.inPos.toNat + 4) _ with ⟨tag, htag, e⟩ | ⟨j, -, -, -, e⟩ <;> rw [e] at h
  on_goal 2 => cases h
  split at h
  · exact .inr (.inr (.inr (.inl ⟨tag, htag, by simp_all, by cases h; rfl⟩)))
  refine .inr (.inr (.inr (.inr ?_)))
  have ha : tagAlpha tag = true := by simp_all
  rcases s.withWord_cases .ibuf (s.inPos.toNat + 8 + len.toNat) _ with ⟨rx, hrx, e⟩ | ⟨j, -, -, -, e⟩ <;>
    rw [parseChecksum, e] at h
  on_goal 2 => cases h
  rcases s.withBytes_cases .ibuf (s.inPos.toNat + 8) len.toNat _ with ⟨data, hd, e⟩ | ⟨j, -, -, -, e⟩ <;>
    rw [e] at h
  on_goal 2 => cases h
  refine ⟨len, tag, data, rx, .of_reads (by omega) (by omega) hlen htag hd hrx, ha, ?_⟩
  simp only at h
  split at h
  · exact .inl ⟨by assumption, by cases h; rfl⟩
  · exact .inr ⟨by simp_all, by cases h; rfl⟩

/-- What a CHUNK_PARSE that succeeded has done (R152). -/
theorem execChunkParse_success {s t : State} (h : execChunkParse s = .next t) (he : t.errCode = .success) :
    ∃ len tag data, FramedAt s len tag data (chunkCrc tag data) ∧ tagAlpha tag = true ∧
      t = ((s.putDiagnostics (chunkCrc tag data) (chunkCrc tag data)).commitParse s.inPos.toNat len tag data
        (chunkCrc tag data)).complete := by
  rcases execChunkParse_cases h with ⟨-, rfl⟩ | ⟨-, -, rfl⟩ | ⟨_, -, -, rfl⟩ | ⟨_, -, -, rfl⟩ |
    ⟨len, tag, data, rx, hf, ht, ⟨-, rfl⟩ | ⟨rfl, rfl⟩⟩ <;> try (simp at he; done)
  exact ⟨len, tag, data, hf, ht, rfl⟩

end Sys2Proof.Machine
end

