-- ==== Sys2Proof/Laws/Crc.lean ====
section
/-! SUPPORT. The laws of the CRC: sequences compose, one round and one byte are linear and injective. -/

namespace Sys2Proof.Machine

@[simp] theorem crcState_nil (c : Word) : crcState c [] = c := rfl

@[simp] theorem crcState_cons (c : Word) (b : Byte) (s : List Byte) :
    crcState c (b :: s) = crcState (crcStep c b) s := rfl

/-- A CRC can be computed in pieces (R102). -/
@[simp] theorem crcState_append (c : Word) (s u : List Byte) :
    crcState c (s ++ u) = crcState (crcState c s) u := by
  simp [crcState, List.foldl_append]

/-- Eight rounds: what crc_step does after the byte is in. -/
def crcRounds (c : Word) : Word := crcBit (crcBit (crcBit (crcBit (crcBit (crcBit (crcBit (crcBit c)))))))

theorem crcStep_eq (c : Word) (b : Byte) : crcStep c b = crcRounds (c ^^^ b.setWidth 32) := rfl

theorem getLsbD_crcBit (c : Word) (i : Nat) :
    (crcBit c).getLsbD i = ((c >>> 1).getLsbD i ^^ (c.getLsbD 0 && crcPoly.getLsbD i)) := by
  unfold crcBit
  cases h : c.getLsbD 0 <;> simp

/-- One round is linear. -/
theorem crcBit_xor (x y : Word) : crcBit (x ^^^ y) = crcBit x ^^^ crcBit y := by
  apply BitVec.eq_of_getLsbD_eq
  intro i hi
  simp only [getLsbD_crcBit, BitVec.getLsbD_xor, BitVec.getLsbD_ushiftRight]
  cases x.getLsbD 0 <;> cases y.getLsbD 0 <;> cases crcPoly.getLsbD i <;>
    cases x.getLsbD (1 + i) <;> cases y.getLsbD (1 + i) <;> rfl

theorem crcRounds_xor (x y : Word) : crcRounds (x ^^^ y) = crcRounds x ^^^ crcRounds y := by
  simp only [crcRounds, crcBit_xor]

/-- One round takes no word but 0 to 0: the polynomial's bit 31 shows whether bit 0 was set. -/
theorem crcBit_eq_zero {c : Word} (h : crcBit c = 0) : c = 0 := by
  have b0 : c.getLsbD 0 = false := by
    have := congrArg (·.getLsbD 31) h
    simp only [getLsbD_crcBit, BitVec.getLsbD_ushiftRight] at this
    simpa [crcPoly] using this
  apply BitVec.eq_of_getLsbD_eq
  intro i hi
  cases i with
  | zero => simpa using b0
  | succ i =>
    have := congrArg (·.getLsbD i) h
    simp only [getLsbD_crcBit, BitVec.getLsbD_ushiftRight, b0] at this
    rw [Nat.add_comm 1 i] at this
    simpa using this

theorem crcRounds_eq_zero {c : Word} (h : crcRounds c = 0) : c = 0 := by
  unfold crcRounds at h
  exact crcBit_eq_zero (crcBit_eq_zero (crcBit_eq_zero (crcBit_eq_zero (crcBit_eq_zero (crcBit_eq_zero
    (crcBit_eq_zero (crcBit_eq_zero h)))))))

/-- Eight rounds are injective. -/
theorem crcRounds_injective {x y : Word} (h : crcRounds x = crcRounds y) : x = y := by
  have : crcRounds (x ^^^ y) = 0 := by rw [crcRounds_xor, h, BitVec.xor_self]; rfl
  exact BitVec.xor_eq_zero_iff.1 (crcRounds_eq_zero this)

/-- One byte keeps different states different. -/
theorem crcStep_state_injective {x y : Word} {b : Byte} (h : crcStep x b = crcStep y b) : x = y := by
  have := crcRounds_injective (by simpa only [crcStep_eq] using h)
  exact BitVec.xor_left_inj _ |>.1 this

/-- A byte sequence keeps different states different. -/
theorem crcState_injective {x y : Word} {s : List Byte} (h : crcState x s = crcState y s) : x = y := by
  induction s generalizing x y with
  | nil => exact h
  | cons b s ih => exact crcStep_state_injective (ih h)

/-- Different bytes take one state to different states. -/
theorem crcStep_byte_injective {c : Word} {a b : Byte} (h : crcStep c a = crcStep c b) : a = b := by
  have := crcRounds_injective (by simpa only [crcStep_eq] using h)
  have := BitVec.xor_right_inj _ |>.1 this
  have := congrArg (BitVec.setWidth 8) this
  simpa using this

/-- A round on an even state is a shift. -/
theorem crcBit_of_even {x : Word} (h : x.getLsbD 0 = false) : crcBit x = x >>> 1 := by
  simp only [crcBit, h]
  rfl

/-- Eight rounds on a state whose low byte is 0 are a shift by a byte. -/
theorem crcRounds_of_low_zero {x : Word} (h : ∀ i < 8, x.getLsbD i = false) : crcRounds x = x >>> 8 := by
  have s : ∀ n < 8, crcBit (x >>> n) = x >>> (n + 1) := by
    intro n hn
    rw [crcBit_of_even (by simpa using h n hn), BitVec.shiftRight_add]
  unfold crcRounds
  conv_lhs => rw [show x = x >>> 0 by simp]
  rw [s 0 (by decide), s 1 (by decide), s 2 (by decide), s 3 (by decide), s 4 (by decide), s 5 (by decide),
    s 6 (by decide), s 7 (by decide)]

end Sys2Proof.Machine
end

