-- ==== Sys2Proof/Laws/Encoding.lean ====
section
/-! SUPPORT. The laws of the encoding: a word is its three fields (R70), what it takes to select a row (R72), and that no
word selects two rows (R73). -/

namespace Sys2Proof

/-- OP, bits 7:0 of a command word (R70). -/
def opField (w : Word) : Byte := w.extractLsb' 0 8

/-- RSVD, bits 31:16 of a command word (R70). -/
def rsvdField (w : Word) : BitVec 16 := w.extractLsb' 16 16

/-- Two words are equal iff their OP, ARG and RSVD fields are (R70). -/
theorem word_eq_iff_fields (v w : Word) :
    v = w ↔ opField v = opField w ∧ argField v = argField w ∧ rsvdField v = rsvdField w := by
  refine ⟨by rintro rfl; exact ⟨rfl, rfl, rfl⟩, fun ⟨ho, ha, hr⟩ => ?_⟩
  apply BitVec.eq_of_getLsbD_eq
  intro i hi
  by_cases h8 : i < 8
  · have := congrArg (·.getLsbD i) ho
    simpa [opField, h8] using this
  · by_cases h16 : i < 16
    · have := congrArg (·.getLsbD (i - 8)) ha
      simpa [argField, show i - 8 < 8 by omega, show 8 + (i - 8) = i by omega] using this
    · have := congrArg (·.getLsbD (i - 16)) hr
      simpa [rsvdField, show i - 16 < 16 by omega, show 16 + (i - 16) = i by omega] using this

/-- A word selects a row that takes no ARG iff it is the row's match value (R72). -/
theorem selects_allFixed (m : Mnemonic) (p w : Word) : Row.selects ⟨m, p, allFixed⟩ w = true ↔ w = p := by
  have : w &&& allFixed = w := by
    have h : allFixed = BitVec.allOnes 32 := by decide
    rw [h, BitVec.and_allOnes]
  simp [Row.selects, this]

/-- A word selects a row that takes an ARG iff its OP and RSVD are the row's (R72). -/
theorem selects_argFree (m : Mnemonic) {p : Word} (hp : argField p = 0) (w : Word) :
    Row.selects ⟨m, p, argFree⟩ w = true ↔ opField w = opField p ∧ rsvdField w = rsvdField p := by
  have ho : argFree.extractLsb' 0 8 = BitVec.allOnes 8 := by decide
  have ha : argFree.extractLsb' 8 8 = 0 := by decide
  have hr : argFree.extractLsb' 16 16 = BitVec.allOnes 16 := by decide
  have e1 : opField (w &&& argFree) = opField w := by
    rw [opField, BitVec.extractLsb'_and, ho, BitVec.and_allOnes]; rfl
  have e2 : argField (w &&& argFree) = 0 := by
    rw [argField, BitVec.extractLsb'_and, ha]; exact BitVec.and_zero
  have e3 : rsvdField (w &&& argFree) = rsvdField w := by
    rw [rsvdField, BitVec.extractLsb'_and, hr, BitVec.and_allOnes]; rfl
  simp [Row.selects, word_eq_iff_fields (w &&& argFree) p, e1, e2, e3, hp]

/-- No word selects two rows: the OP values differ and every mask covers OP (R73). -/
theorem opcodeTable_rows_disjoint :
    opcodeTable.Pairwise fun r₁ r₂ => opField r₁.pattern ≠ opField r₂.pattern := by decide

/-- Every mask covers OP, so a selecting word has the row's OP (R72, R73). -/
theorem opField_of_selects {r : Row} (h : r ∈ opcodeTable) {w : Word} (hw : r.selects w = true) :
    opField w = opField r.pattern := by
  simp only [opcodeTable, Mnemonic.row, List.map_cons, List.map_nil, List.mem_cons, List.not_mem_nil, or_false] at h
  rcases h with rfl | rfl | rfl | rfl | rfl | rfl | rfl | rfl | rfl | rfl <;>
    first
      | (rw [selects_allFixed] at hw; rw [hw])
      | exact ((selects_argFree _ (by decide) w).1 hw).1

/-- The row a decoder finds is a row of the table that the word selects. -/
theorem selects_of_find {w r} (h : opcodeTable.find? (·.selects w) = some r) :
    r ∈ opcodeTable ∧ r.selects w = true :=
  ⟨List.mem_of_find?_eq_some h, List.find?_some (p := fun r : Row => r.selects w) h⟩

/-- A word decodes to a row's command, whose word it is, or selects no row and is illegal (R73). -/
theorem decode_cases (w : Word) :
    (∃ m a, decode w = Mnemonic.command m a ∧ encode (decode w) = w) ∨
    (decode w = .illegal w ∧ ∀ r ∈ opcodeTable, r.selects w = false) := by
  unfold decode
  cases h : opcodeTable.find? (·.selects w) with
  | none => 
    right; refine ⟨rfl, fun r hr => ?_⟩
    have := List.find?_eq_none.1 h r hr
    simpa using this
  | some r =>
    left
    obtain ⟨hm, hs⟩ := selects_of_find h
    refine ⟨r.mnemonic, argField w, rfl, ?_⟩
    simp only [opcodeTable, Mnemonic.row, List.map_cons, List.map_nil, List.mem_cons, List.not_mem_nil, or_false] at hm
    rcases hm with rfl | rfl | rfl | rfl | rfl | rfl | rfl | rfl | rfl | rfl <;>
    first
      | (rw [selects_allFixed] at hs; subst hs; decide)
      | skip
    all_goals
      have hs' := (selects_argFree _ (by decide) w).1 hs
      rw [word_eq_iff_fields]
      simp only [Mnemonic.command, encode]
      refine ⟨?_, ?_, ?_⟩
      · rw [hs'.1]; generalize argField w = a; revert a; decide
      · generalize argField w = a; revert a; decide
      · rw [hs'.2]; generalize argField w = a; revert a; decide

/-- The words of a command that decodes back: its own word alone. -/
theorem decode_eq_iff {i : Instr} (h : decode (encode i) = i) (w : Word) : decode w = i ↔ w = encode i := by
  refine ⟨?_, fun e => e ▸ h⟩
  rintro rfl
  rcases decode_cases w with ⟨-, -, -, h⟩ | ⟨h, -⟩
  · exact h.symm
  · rw [h]
    rfl

/-- The three conditions of R74 are what it takes to select no row. -/
theorem isIllegalWord_iff (w : Word) : isIllegalWord w = true ↔ ∀ r ∈ opcodeTable, r.selects w = false := by
  have hx : ∀ r : Row, r.selects w = false ↔ ¬ r.selects w = true := by simp
  simp only [hx, opcodeTable, Mnemonic.row, List.map_cons, List.map_nil, List.mem_cons, List.not_mem_nil, or_false,
    forall_eq_or_imp, forall_eq, selects_allFixed]
  rw [selects_argFree _ (by decide), selects_argFree _ (by decide)]
  simp only [word_eq_iff_fields, isIllegalWord]
  change (!((argOps ++ plainOps).contains (opField w)) || rsvdField w != 0
    || (argField w != 0 && plainOps.contains (opField w))) = true ↔ _
  simp only [
    show opField 0x0000_0001 = 0x01 by decide, show opField 0x0000_0002 = 0x02 by decide,
    show opField 0x0000_0003 = 0x03 by decide, show opField 0x0000_0004 = 0x04 by decide,
    show opField 0x0000_0010 = 0x10 by decide, show opField 0x0000_0011 = 0x11 by decide,
    show opField 0x0000_0012 = 0x12 by decide, show opField 0x0000_0020 = 0x20 by decide,
    show opField 0x0000_0021 = 0x21 by decide, show opField 0x0000_0022 = 0x22 by decide,
    show argField 0x0000_0001 = 0 by decide, show argField 0x0000_0003 = 0 by decide,
    show argField 0x0000_0004 = 0 by decide, show argField 0x0000_0010 = 0 by decide,
    show argField 0x0000_0012 = 0 by decide, show argField 0x0000_0020 = 0 by decide,
    show argField 0x0000_0021 = 0 by decide, show argField 0x0000_0022 = 0 by decide,
    show rsvdField 0x0000_0001 = 0 by decide, show rsvdField 0x0000_0002 = 0 by decide,
    show rsvdField 0x0000_0003 = 0 by decide, show rsvdField 0x0000_0004 = 0 by decide,
    show rsvdField 0x0000_0010 = 0 by decide, show rsvdField 0x0000_0011 = 0 by decide,
    show rsvdField 0x0000_0012 = 0 by decide, show rsvdField 0x0000_0020 = 0 by decide,
    show rsvdField 0x0000_0021 = 0 by decide, show rsvdField 0x0000_0022 = 0 by decide]
  generalize rsvdField w = r
  generalize argField w = a
  generalize opField w = o
  have e1 : (r != 0) = !decide (r = 0) := rfl
  have e2 : (a != 0) = !decide (a = 0) := rfl
  rw [e1, e2]
  by_cases hr : r = 0 <;> by_cases ha : a = 0 <;>
    simp only [hr, ha, decide_true, decide_false, true_and, and_true, and_false, not_false_eq_true] <;>
    (revert o; decide)

end Sys2Proof
end

