-- ==== Sys2Proof/Laws/PerInstr.lean ====
section
/-! SUPPORT. What holds of every command as syntax, one lemma a constructor: the word of a command is illegal (R74) for
the illegal commands alone. -/

namespace Sys2Proof.Laws.EncodedLegality

/-- Whether a command is the illegal one (R74). -/
def isIllegal : Instr → Bool
  | .crcInit => false
  | .crcByte _ => false
  | .crcTag => false
  | .crcData => false
  | .tagCheck => false
  | .tagCheckStr _ => false
  | .tagCmp => false
  | .chunkNew => false
  | .chunkParse => false
  | .chunkSerialize => false
  | .illegal _ => true

/-- The word of a well-formed command meets one of R74's three conditions iff the command is illegal. -/
def Statement (i : Instr) : Prop := i.wf = true → isIllegalWord (encode i) = isIllegal i

theorem crcInit : Statement .crcInit := fun _ => by decide

theorem crcByte (b : Byte) : Statement (.crcByte b) := fun _ => by revert b; decide

theorem crcTag : Statement .crcTag := fun _ => by decide

theorem crcData : Statement .crcData := fun _ => by decide

theorem tagCheck : Statement .tagCheck := fun _ => by decide

theorem tagCheckStr (n : Byte) : Statement (.tagCheckStr n) := fun _ => by revert n; decide

theorem tagCmp : Statement .tagCmp := fun _ => by decide

theorem chunkNew : Statement .chunkNew := fun _ => by decide

theorem chunkParse : Statement .chunkParse := fun _ => by decide

theorem chunkSerialize : Statement .chunkSerialize := fun _ => by decide

theorem illegal (w : Word) : Statement (.illegal w) := fun h => h

end Sys2Proof.Laws.EncodedLegality
end

