-- ==== Sys2Proof/Laws/Port.lean ====
section
/-! SUPPORT. The laws of the host port: the bits of STATUS and TAGFLAGS, where each register and each buffer byte
stands, and which accesses reach them. -/

namespace Sys2Proof.Machine

/-- A word with one bit at `i` has it there and 0 elsewhere. -/
theorem getLsbD_bitAt (i k : Nat) (b : Bool) (hi : i < 32) : (bitAt i b).getLsbD k = (b && decide (k = i)) := by
  simp only [bitAt, BitVec.getLsbD_shiftLeft, BitVec.getLsbD_setWidth, BitVec.getLsbD_ofBool]
  by_cases h : k = i
  · subst h; simp [hi]
  · by_cases h2 : k < i
    · simp [h2, h]
    · have : k - i ≠ 0 := by omega
      simp [this, h]

/-- The fields of a STATUS word, out of its parts (R24). -/
theorem status_fields (busy sticky valid : Bool) (e : BitVec 4) (c : BitVec 2) (v : Word)
    (hv : v = bitAt 0 busy ||| bitAt 2 sticky ||| bitAt 3 valid ||| (e.setWidth 32 <<< 4) ||| (c.setWidth 32 <<< 8)) :
    v.getLsbD 0 = busy ∧ v.getLsbD 1 = false ∧ v.getLsbD 2 = sticky ∧ v.getLsbD 3 = valid ∧
      v.extractLsb' 4 4 = e ∧ v.extractLsb' 8 2 = c ∧ v.extractLsb' 10 22 = 0 := by
  subst hv
  cases busy <;> cases sticky <;> cases valid <;> revert e c <;> decide

/-- Every register stands at its offset (R22). -/
@[simp] theorem regAt_offset (r : Reg) : regAt r.offset = some r := by cases r <;> decide

/-- Only a register's own offset holds it (R22). -/
theorem regAt_some {off : Word} {r : Reg} (h : regAt off = some r) : off = r.offset := by
  have := List.find?_some (p := fun x : Reg => x.offset == off) h
  exact (beq_iff_eq.1 this).symm

/-- A 4-byte access at a register's offset reaches the register (R51, R54). -/
theorem locate_reg (c : Caps) (r : Reg) : locate c r.offset 4 = some (.reg r) := by
  have : r.offset.toNat < regWindowSize := by cases r <;> decide
  simp [locate, this, regAt_offset]

/-- The mapped register offsets are the multiples of 4 up to 0x40 (R22, R51). -/
theorem regAt_isSome (off : Word) : (∃ r, regAt off = some r) ↔ off.toNat % 4 = 0 ∧ off.toNat ≤ 0x40 := by
  constructor
  · rintro ⟨r, h⟩
    rw [regAt_some h]
    cases r <;> decide
  · rintro ⟨h1, h2⟩
    have : ∃ k, k < 17 ∧ off = BitVec.ofNat 32 (4 * k) :=
      ⟨off.toNat / 4, by omega, by apply BitVec.eq_of_toNat_eq; simp; omega⟩
    obtain ⟨k, hk, rfl⟩ := this
    clear h1 h2
    have : ∀ k < 17, (regAt (BitVec.ofNat 32 (4 * k))).isSome = true := by decide
    exact Option.isSome_iff_exists.1 (this k hk)

/-- The buffer windows (R52). -/
theorem windowAt_spec {n : Nat} {b : Buf} {i : Nat} :
    windowAt n = some (b, i) ↔ n = b.window + i ∧ i < windowSize := by
  have key : windowAt n =
      if Buf.ibuf.window ≤ n ∧ n < Buf.ibuf.window + windowSize then some (.ibuf, n - Buf.ibuf.window)
      else if Buf.dbuf.window ≤ n ∧ n < Buf.dbuf.window + windowSize then some (.dbuf, n - Buf.dbuf.window)
      else if Buf.obuf.window ≤ n ∧ n < Buf.obuf.window + windowSize then some (.obuf, n - Buf.obuf.window)
      else none := by
    simp only [windowAt, List.findSome?_cons, List.findSome?_nil]
    split_ifs <;> rfl
  rw [key]
  cases b <;> split_ifs <;>
    simp only [Option.some.injEq, Prod.mk.injEq, reduceCtorEq, false_and, true_and, false_iff, Buf.window,
      windowSize] at * <;>
    omega

/-- The accesses that reach a register (R54). -/
theorem locate_reg_iff {c : Caps} {off : Word} {w : Nat} {r : Reg} :
    locate c off w = some (.reg r) ↔ w = 4 ∧ off = r.offset := by
  constructor
  · intro h
    simp only [locate] at h
    split at h
    · split at h
      · cases hr : regAt off <;> simp [hr] at h
        subst h; exact ⟨by assumption, regAt_some hr⟩
      · cases h
    · split at h
      · split at h
        · split at h <;> cases h
        · cases h
      · cases h
  · rintro ⟨rfl, rfl⟩; exact locate_reg c r

/-- The capacities of this implementation meet R5, whatever it chose. -/
theorem caps_legal : Config.caps.Legal := by
  unfold Config.caps
  split
  · assumption
  · decide

/-- Each buffer fits its window (R5). -/
theorem bufSize_le {c : Caps} (h : c.Legal) (b : Buf) : bufSize c b ≤ windowSize := by
  obtain ⟨h1, h2, h3, h4⟩ := h
  cases b <;> simp [bufSize, windowSize] <;> omega

/-- An access that reaches a buffer byte is a one-byte access at its offset (R52, R54). -/
theorem locate_byte_offset {c : Caps} {off : Word} {w : Nat} {b : Buf} {i : Nat}
    (h : locate c off w = some (.byte b i)) : w = 1 ∧ i < bufSize c b ∧ off.toNat = b.window + i := by
  simp only [locate] at h
  split at h
  · split at h
    · cases hr : regAt off <;> simp [hr] at h
    · cases h
  · split at h
    · split at h
      · rename_i hb
        split at h
        · cases h
          exact ⟨by assumption, by assumption, (windowAt_spec.1 hb).1⟩
        · cases h
      · cases h
    · cases h

/-- The accesses that reach a buffer byte (R52, R54). -/
theorem locate_byte_iff {c : Caps} (hc : c.Legal) {off : Word} {w : Nat} {b : Buf} {i : Nat} :
    locate c off w = some (.byte b i) ↔ w = 1 ∧ i < bufSize c b ∧ off.toNat = b.window + i := by
  refine ⟨locate_byte_offset, ?_⟩
  rintro ⟨rfl, h2, h3⟩
  have : ¬ off.toNat < regWindowSize := by
    rw [h3]
    simp only [regWindowSize]
    cases b <;> simp only [Buf.window] <;> omega
  have hw : windowAt off.toNat = some (b, i) := windowAt_spec.2 ⟨h3, lt_of_lt_of_le h2 (bufSize_le hc b)⟩
  simp [locate, this, hw, h2]

/-- The accesses that reach something are the legal ones (R51 to R55). -/
theorem legalAccess_iff_locate {c : Caps} (hc : c.Legal) {off : Word} {w : Nat} :
    LegalAccess c off w ↔ (locate c off w).isSome = true := by
  rw [Option.isSome_iff_exists]
  constructor
  · rintro (⟨rfl, h1, h2⟩ | ⟨rfl, i, h | h | h⟩)
    · obtain ⟨r, hr⟩ := (regAt_isSome off).2 ⟨h1, h2⟩
      exact ⟨_, locate_reg_iff.2 ⟨rfl, regAt_some hr⟩⟩
    · exact ⟨.byte .ibuf i, (locate_byte_iff hc).2 ⟨rfl, h⟩⟩
    · exact ⟨.byte .dbuf i, (locate_byte_iff hc).2 ⟨rfl, h⟩⟩
    · exact ⟨.byte .obuf i, (locate_byte_iff hc).2 ⟨rfl, h⟩⟩
  · rintro ⟨r | ⟨b, i⟩, h⟩
    · obtain ⟨rfl, rfl⟩ := locate_reg_iff.1 h
      refine .inl ⟨rfl, ?_⟩
      cases r <;> decide
    · obtain ⟨rfl, h2, h3⟩ := (locate_byte_iff hc).1 h
      refine .inr ⟨rfl, i, ?_⟩
      cases b
      · exact .inl ⟨h2, h3⟩
      · exact .inr (.inl ⟨h2, h3⟩)
      · exact .inr (.inr ⟨h2, h3⟩)

/-! ## Commands at the port -/

/-- A command is a four-byte write at offset 0x00 (R22, R23). -/
theorem isCommand_iff {a : Access} : a.isCommand = true ↔ ∃ v, a = .write 0x00 4 v := by
  cases a <;> simp [Access.isCommand, Reg.offset]

/-- No command outlasts reset (R200). -/
theorem Request.outlastsReset_isCommand {r : Request} (h : r.outlastsReset = true) : r.access.isCommand = false := by
  simp only [Request.outlastsReset, Bool.and_eq_true, Bool.not_eq_true'] at h
  exact h.1

/-- Reset leaves no command at the port (R200). -/
theorem applyReset_port_isCommand {s : State} {q : Request} (h : q ∈ s.applyReset.port) : q.access.isCommand = false :=
  Request.outlastsReset_isCommand (List.mem_filter.1 h).2

end Sys2Proof.Machine
end

