-- ==== Sys2Proof/Laws/Step.lean ====
section
/-! SUPPORT. What one step can do, once (step_cases), what the host port can do (performAccess_cases), what every
command leaves alone (exec_frame), and how a run unfolds (runSteps). -/

namespace Sys2Proof.Machine

/-! ## Runs -/

/-- A run goes on from the next state. -/
theorem runSteps_next {s t : State} (h : step s = .next t) (n : Nat) : runSteps (n + 1) s = runSteps n t := by
  simp only [runSteps, h]

/-- A run stops at a fault. -/
theorem runSteps_fault {s : State} {f : Fault} (h : step s = .fault f) (n : Nat) : runSteps (n + 1) s = .fault f := by
  simp only [runSteps, h]

/-- A run stops at a refusal. -/
theorem runSteps_refused {s : State} {r : Refusal} (h : step s = .refused r) (n : Nat) :
    runSteps (n + 1) s = .refused r := by
  simp only [runSteps, h]

/-- A run may be cut in two. -/
theorem runSteps_add {s t : State} {m : Nat} (h : runSteps m s = .next t) (n : Nat) :
    runSteps (m + n) s = runSteps n t := by
  induction m generalizing s with
  | zero => cases h; rw [Nat.zero_add]
  | succ m ih =>
    rw [Nat.add_right_comm]
    simp only [runSteps] at h ⊢
    cases hs : step s with
    | next u => rw [hs] at h; exact ih h
    | fault f => rw [hs] at h; cases h
    | refused r => rw [hs] at h; cases h

/-! ## What a step does -/

/-- An access made during reset is refused, whatever else the state holds (R201). -/
theorem step_madeInReset {s : State} {a : Access} (h : s.madeInReset = some a) :
    step s = .refused (.accessDuringReset a) := by
  simp [step, h]

/-- The host cannot take an access made during reset back, and the first stays the one named (R201). -/
theorem HostActs.madeInReset_eq {s t : State} {a : Access} (h : HostActs s t) (hs : s.madeInReset = some a) :
    t.madeInReset = some a := by
  induction h with
  | none => exact hs
  | present b n _ ih => simp only [State.present]; split <;> simp [ih]
  | driveReset b _ ih => cases b <;> simpa using ih

/-- Otherwise, while reset is applied, a step applies it (R200). -/
theorem step_inReset {s : State} (h1 : s.madeInReset = none) (h2 : s.resetLine = true) :
    step s = .next s.applyReset := by
  simp [step, h1, h2]

/-- Where a command is due, the step is the engine's (R180). -/
theorem step_due {s : State} {w : Word} (h : Due s w) : step s = engineTurn w s := by
  obtain ⟨⟨h0, h1⟩, h2⟩ := h
  simp [step, h0, h1, h2]

/-- Where an access is at the port, the step performs it (R64). -/
theorem step_atPort {s : State} {a : Access} {d : Nat} {rest : List Request} (h : AtPort s a d rest) :
    step s = performAccess a d { s with port := rest } := by
  obtain ⟨⟨h0, h1⟩, h2, h3⟩ := h
  simp [step, h0, h1, h2, hostTurn, h3]

/-- While a command has turns left, the step is a host turn (R61). -/
theorem step_busy {s : State} {w : Word} {n : Nat} (h1 : Released s) (h2 : s.inflight = some ⟨w, n + 1⟩) :
    step s = busyTurn ⟨w, n + 1⟩ s := by
  simp [step, h1.1, h1.2, h2]

/-- A performed access reads and only answers, or writes one register, or writes one buffer byte inside its buffer. -/
theorem performAccess_cases {a : Access} {d : Nat} {s t : State} (h : performAccess a d s = .next t) :
    (∃ r, t = s.answer r) ∨
    (∃ off w v r, a = .write off w v ∧ locate s.caps off w = some (.reg r) ∧ t = (s.writeReg r v d).answer .written) ∨
    (∃ off w v b i, a = .write off w v ∧ locate s.caps off w = some (.byte b i) ∧ i < bufSize s.caps b ∧
      t = (s.pokeByte b i (v.setWidth 8)).answer .written) := by
  cases a with
  | read off w =>
    simp only [performAccess] at h
    split at h
    · cases h
    · cases h; exact .inl ⟨_, rfl⟩
    · split at h
      · cases h
      · cases h; exact .inl ⟨_, rfl⟩
  | write off w v =>
    simp only [performAccess] at h
    split at h
    · cases h
    · rename_i r hr; cases h; exact .inr (.inl ⟨off, w, v, r, rfl, hr, rfl⟩)
    · rename_i b i hb; cases h; exact .inr (.inr ⟨off, w, v, b, i, rfl, hb, (locate_byte_offset hb).2.1, rfl⟩)

/-- A register write leaves the queue alone. -/
@[simp] theorem writeReg_port (s : State) (r : Reg) (v : Word) (d : Nat) : (s.writeReg r v d).port = s.port := by
  cases r <;> simp only [State.writeReg] <;> first | rfl | (split <;> rfl)

/-- A register write starts a command where the register is CMD, and nowhere else (R57). -/
theorem writeReg_inflight (s : State) (r : Reg) (v : Word) (d : Nat) :
    (r = .cmd ∧ (s.writeReg r v d).inflight = some ⟨v, d⟩) ∨ (s.writeReg r v d).inflight = s.inflight := by
  cases r with
  | cmd => exact .inl ⟨rfl, rfl⟩
  | status => right; simp only [State.writeReg]; split <;> rfl
  | _ => exact .inr rfl

/-- What a host turn during a command changes: the count of turns, and the queue and the answer where a STATUS read
completes (R61). -/
theorem busyTurn_cases (c : InFlight) (s : State) :
    busyTurn c s = .next { s with inflight := some ⟨c.word, c.delay - 1⟩ } ∨
    (∃ r rest, s.port = r :: rest ∧ r.access.isStatusRead = true ∧
      busyTurn c s = .next { s with
        inflight := some ⟨c.word, c.delay - 1⟩, port := rest, reply := some (.word (statusWord s)) }) := by
  cases hp : s.port with
  | nil => exact .inl (by simp [busyTurn, hp])
  | cons r rest =>
    by_cases hr : r.access.isStatusRead = true
    · exact .inr ⟨r, rest, rfl, hr, by simp [busyTurn, hp, hr, State.answer]⟩
    · exact .inl (by simp [busyTurn, hp, hr])

/-- Everything a step that answers a next state can have done. -/
theorem step_cases {s t : State} (h : step s = .next t) :
    (s.resetLine = true ∧ s.madeInReset = none ∧ t = s.applyReset) ∨
    (∃ w u, Due s w ∧ exec (decode w) s = .next u ∧ t = u.finish) ∨
    (Released s ∧ ∃ c, s.inflight = some c ∧ c.delay ≠ 0 ∧ busyTurn c s = .next t) ∨
    (Released s ∧ s.inflight = none ∧ s.port = [] ∧ t = s) ∨
    (∃ a d rest, AtPort s a d rest ∧ performAccess a d { s with port := rest } = .next t) := by
  unfold step at h
  split at h
  · cases h
  rename_i hm
  split at h
  · rename_i hr
    cases h; exact .inl ⟨hr, hm, rfl⟩
  · rename_i hr
    have hr : Released s := ⟨by simpa using hr, hm⟩
    split at h
    · rename_i hi
      unfold hostTurn at h
      split at h
      · cases h; exact .inr (.inr (.inr (.inl ⟨hr, hi, by assumption, rfl⟩)))
      · rename_i r rest hp
        exact .inr (.inr (.inr (.inr ⟨r.access, r.delay, rest, ⟨hr, hi, hp⟩, h⟩)))
    · rename_i c hi
      split at h
      · rename_i hd
        obtain ⟨w, d⟩ := c
        simp only at hd
        subst hd
        unfold engineTurn at h
        split at h
        · rename_i u hu; cases h; exact .inr (.inl ⟨w, u, ⟨hr, hi⟩, hu, rfl⟩)
        · cases h
        · cases h
      · rename_i hd
        exact .inr (.inr (.inl ⟨hr, c, hi, hd, h⟩))

/-- What every command leaves alone: the second tag, IN_LEN, the capacities, IBUF and everything outside the block's
registers and buffers (R33, R38, R41). -/
theorem exec_frame {i : Instr} {s t : State} (h : exec i s = .next t) :
    t.tagB = s.tagB ∧ t.inLen = s.inLen ∧ t.caps = s.caps ∧ t.ibuf = s.ibuf ∧ t.inflight = s.inflight ∧
      t.resetLine = s.resetLine ∧ t.port = s.port ∧ t.reply = s.reply ∧ t.madeInReset = s.madeInReset := by
  cases i with
  | crcInit => simp only [exec, execCrcInit] at h; cases h; simp
  | crcByte b => simp only [exec, execCrcByte] at h; cases h; simp
  | crcTag => simp only [exec, execCrcTag] at h; cases h; simp
  | crcData => rcases execCrcData_cases h with ⟨-, rfl⟩ | ⟨-, d, -, rfl⟩ <;> simp
  | tagCheck => simp only [exec, execTagCheck] at h; split at h <;> cases h <;> simp
  | tagCheckStr n =>
    simp only [exec, execTagCheckStr] at h
    split at h
    · cases h; simp
    · split at h <;> cases h <;> simp
  | tagCmp => simp only [exec, execTagCmp] at h; cases h; simp
  | chunkNew => rcases execChunkNew_cases h with ⟨-, rfl⟩ | ⟨-, -, rfl⟩ | ⟨-, -, d, -, rfl⟩ <;> simp
  | chunkParse =>
    rcases execChunkParse_cases h with ⟨-, rfl⟩ | ⟨-, -, rfl⟩ | ⟨_, -, -, rfl⟩ | ⟨_, -, -, rfl⟩ |
      ⟨_, _, _, _, -, -, ⟨-, rfl⟩ | ⟨-, rfl⟩⟩ <;> simp
  | chunkSerialize =>
    rcases execChunkSerialize_cases h with ⟨-, rfl⟩ | ⟨-, rfl⟩ | ⟨-, rfl⟩ | ⟨-, -, -, d, -, rfl⟩ <;> simp
  | illegal w => simp only [exec, execIllegal] at h; cases h; simp

/-- What waits at the port after a step waited there before it: a step adds nothing (R64). -/
theorem step_port_mem {s t : State} (h : step s = .next t) {q : Request} (hq : q ∈ t.port) : q ∈ s.port := by
  rcases step_cases h with ⟨-, -, rfl⟩ | ⟨w, u, -, hu, rfl⟩ | ⟨-, c, -, -, hb⟩ | ⟨-, -, -, rfl⟩ | ⟨a, d, rest, ha, hp⟩
  · exact (List.mem_filter.1 hq).1
  · have := (exec_frame hu).2.2.2.2.2.2.1
    rw [State.finish_port, this] at hq
    exact hq
  · rcases busyTurn_cases c s with e | ⟨r, rest, hr, -, e⟩ <;> rw [e] at hb <;> cases hb
    · exact hq
    · exact hr ▸ List.mem_cons_of_mem _ hq
  · exact hq
  · rw [ha.2.2]
    refine List.mem_cons_of_mem _ ?_
    rcases performAccess_cases hp with ⟨r, rfl⟩ | ⟨off, w, v, r, -, -, rfl⟩ | ⟨off, w, v, b, i, -, -, -, rfl⟩
    · exact hq
    · rwa [State.answer_port, writeReg_port] at hq
    · cases b <;> exact hq

/-- A command starts only by a write to CMD performed at the port (R23, R180). -/
theorem step_starts {s t : State} (h : step s = .next t) (hs : s.inflight = none) {c : InFlight}
    (ht : t.inflight = some c) : ∃ rest, AtPort s (.write 0x00 4 c.word) c.delay rest := by
  rcases step_cases h with ⟨-, -, rfl⟩ | ⟨w, u, hd, -⟩ | ⟨-, c', hc, -⟩ | ⟨-, -, -, rfl⟩ | ⟨a, d, rest, ha, hp⟩
  · cases ht
  · exact absurd (hs.symm.trans hd.2) (by simp)
  · exact absurd (hs.symm.trans hc) (by simp)
  · exact absurd (hs.symm.trans ht) (by simp)
  · rcases performAccess_cases hp with ⟨r, rfl⟩ | ⟨off, w, v, r, rfl, hl, rfl⟩ | ⟨off, w, v, b, i, -, -, -, rfl⟩
    · exact absurd (hs.symm.trans ht) (by simp)
    · obtain ⟨rfl, rfl⟩ := locate_reg_iff.1 hl
      rcases writeReg_inflight { s with port := rest } r v d with ⟨rfl, e⟩ | e <;> rw [State.answer_inflight, e] at ht
      · cases ht; exact ⟨rest, ha⟩
      · exact absurd (hs.symm.trans ht) (by simp)
    · cases b <;> exact absurd (hs.symm.trans ht) (by simp)

end Sys2Proof.Machine
end

