-- ==== Sys2Proof/Tests/Slice0.lean ====
section
/-! SUPPORT. Tests. Expected values are those of spec/95_test_vectors.md, by the vector's name, or are written out from
the rule named. Each runs one command or one step on a small state. Below them, for every obligation with
hypotheses, a state and operands that meet them, at the boundary of each clause. -/

namespace Sys2Proof.Tests

open Sys2Proof.Machine

set_option maxRecDepth 20000

/-! ## Helpers -/

/-- A block just after reset, its capacities small and within R5. -/
def base : State := State.resetWith ⟨64, 52, 64⟩

/-- The next state of an outcome, or a state that is none (its capacities are 0). -/
def after : Result → State
  | .next s => s
  | _ => State.resetWith ⟨0, 0, 0⟩

/-- A block whose chunk registers hold a tag, a length and data. -/
def chunkOf (tag len : Word) (data : List Byte) : State :=
  { base with tag := tag, length := len, dbuf := Memory.writeRange [] 0 data }

/-- A block with bytes in IBUF from index 0, IN_LEN and IN_POS. -/
def streamOf (bs : List Byte) (inLen inPos : Word) : State :=
  { base with ibuf := Memory.writeRange [] 0 bs, inLen := inLen, inPos := inPos }

/-- A block with one access at its port. -/
def asked (a : Access) : State := base.present a 0

/-- A block with a command in flight, due after `n` host turns. -/
def running (w : Word) (n : Nat) : State := { base with inflight := some ⟨w, n⟩ }

/-- K_IEND (95_test_vectors.md). -/
def kIend : List Byte := [0x00, 0x00, 0x00, 0x00, 0x49, 0x45, 0x4E, 0x44, 0xAE, 0x42, 0x60, 0x82]

/-- K_RUST (95_test_vectors.md): the length, the type, the 42 bytes of MSG and the crc. -/
def kRust : List Byte :=
  [0x00, 0x00, 0x00, 0x2A, 0x52, 0x75, 0x53, 0x74, 0x54, 0x68, 0x69, 0x73, 0x20, 0x69, 0x73, 0x20,
    0x77, 0x68, 0x65, 0x72, 0x65, 0x20, 0x79, 0x6F, 0x75, 0x72, 0x20, 0x73, 0x65, 0x63, 0x72, 0x65,
    0x74, 0x20, 0x6D, 0x65, 0x73, 0x73, 0x61, 0x67, 0x65, 0x20, 0x77, 0x69, 0x6C, 0x6C, 0x20, 0x62,
    0x65, 0x21, 0xAB, 0xD1, 0xD8, 0x4E]

/-- "IEND" and "RuSt" and "Ru1t" (95_test_vectors.md). -/
def iend : Word := 0x4945_4E44

def rust : Word := 0x5275_5374

def ru1t : Word := 0x5275_3174

/-! ## Syntax and decoding -/

/-- An illegal command is well formed only with a word that is illegal: the word of CRC_INIT is refused. -/
theorem test_wf_refuses_a_legal_word : (Instr.illegal 0x0000_0001).wf = false := by decide

/-- The two commands with an ARG are legal at its last value, and refused as illegal commands. -/
theorem test_wf_refuses_words_with_arg :
    (Instr.illegal 0x0000_FF02).wf = false ∧ (Instr.illegal 0x0000_FF11).wf = false := by decide

/-- Each of R74's three conditions is enough: an unused OP, a reserved bit, an ARG where none is taken. -/
theorem test_wf_admits_each_illegal_condition :
    (Instr.illegal 0x0000_0005).wf = true ∧ (Instr.illegal 0x8000_0002).wf = true ∧
      (Instr.illegal 0x0000_0122).wf = true := by decide

/-- R72: one word of every command, written out from the table. -/
theorem test_decode_every_command :
    decode 0x0000_0001 = .crcInit ∧ decode 0x0000_0002 = .crcByte 0 ∧ decode 0x0000_FF02 = .crcByte 0xFF ∧
    decode 0x0000_0003 = .crcTag ∧ decode 0x0000_0004 = .crcData ∧ decode 0x0000_0010 = .tagCheck ∧
    decode 0x0000_0011 = .tagCheckStr 0 ∧ decode 0x0000_0411 = .tagCheckStr 4 ∧ decode 0x0000_0012 = .tagCmp ∧
    decode 0x0000_0020 = .chunkNew ∧ decode 0x0000_0021 = .chunkParse ∧ decode 0x0000_0022 = .chunkSerialize := by
  decide

/-- V-CRC-17, V-TAG-17, V-TAG-18 and P4 line 4. -/
theorem test_decode_illegal_words :
    decode 0x0000_0101 = .illegal 0x0000_0101 ∧ decode 0x0000_0110 = .illegal 0x0000_0110 ∧
    decode 0x0001_0012 = .illegal 0x0001_0012 ∧ decode 0 = .illegal 0 := by decide

/-- R75: 246 OP values are unused. -/
theorem test_decode_unused_ops :
    ((List.range 256).filter fun n => decode (BitVec.ofNat 32 n) == .illegal (BitVec.ofNat 32 n)).length = 246 := by
  decide

/-- R70: a command is one word; a wider value is rejected by name. -/
theorem test_decode_rejects_wider_values :
    decodeValue (2 ^ 32) = .error .widerThanOneWord ∧ decodeTableWord 32 (2 ^ 32) = none ∧
      decodeTableWord 32 0x0000_3102 = some (.crcByte 0x31) := ⟨rfl, rfl, by decide⟩

/-- R76: what the assembler makes of a command line, and what it refuses. -/
theorem test_assembler :
    asmWord .crcByte (some 0x31) = .ok 0x0000_3102 ∧ asmWord .tagCheckStr (some 4) = .ok 0x0000_0411 ∧
    asmWord .chunkNew none = .ok 0x0000_0020 ∧ asmWord .crcByte (some 256) = .error .argOutOfRange ∧
    asmWord .crcInit (some 1) = .error .argNotAllowed := by
  refine ⟨?_, ?_, ?_, ?_, ?_⟩ <;> rfl

/-! ## CRC generator -/

/-- R101's examples. -/
theorem test_crcStep_examples :
    crcStep 0 0x01 = 0x7707_3096 ∧ crcStep 0 0x80 = 0xEDB8_8320 ∧ crcStep 0xFFFF_FFFF 0 = 0x2DFD_1072 := by decide

/-- V-CRC-2: the check value of "123456789". -/
theorem test_crc32_check_value :
    crc32 [0x31, 0x32, 0x33, 0x34, 0x35, 0x36, 0x37, 0x38, 0x39] = 0xCBF4_3926 := by decide

/-- V-CRC-1, from a state with other values. -/
theorem test_crcInit :
    let t := after (exec .crcInit { base with crcState := 0x1234_5678, errCode := .rangeError, errSticky := true })
    t.crcState = 0xFFFF_FFFF ∧ t.readReg .crcValue = 0 ∧ t.errCode = .success ∧ t.errSticky = true := by decide

/-- V-CRC-3 and V-CRC-5. -/
theorem test_crcByte :
    (after (exec (.crcByte 0x31) base)).crcState = 0x7C23_1048 ∧
      (after (exec (.crcByte 0xFF) base)).readReg .crcValue = 0xFF00_0000 := by decide

/-- V-CRC-7: the state is not reset by the command. -/
theorem test_crcByte_from_zero : (after (exec (.crcByte 0) { base with crcState := 0 })).crcState = 0 := by decide

/-- V-CRC-10 and V-CRC-11: byte order of TAG. -/
theorem test_crcTag :
    (after (exec .crcTag { base with tag := rust })).crcState = 0x2B7B_F6C3 ∧
      (after (exec .crcTag { base with tag := iend })).readReg .crcValue = 0xAE42_6082 := by decide

/-- V-CRC-13 and V-CRC-14. -/
theorem test_crcData :
    (after (exec .crcData { base with crcState := 0x1234_5678 })).crcState = 0x1234_5678 ∧
      (after (exec .crcData { base with length := 53 })).errCode = .rangeError := by decide

/-- V-CRC-2 through CRC_DATA. -/
theorem test_crcData_check_value :
    (after (exec .crcData (chunkOf 0 9 [0x31, 0x32, 0x33, 0x34, 0x35, 0x36, 0x37, 0x38, 0x39]))).crcState
      = 0x340B_C6D9 := by decide

/-! ## Tag checker -/

/-- V-TAG-1, V-TAG-2, V-TAG-7 to V-TAG-11: TAGFLAGS. -/
theorem test_tagflags :
    [rust, ru1t, 0x5255_7374, 0x405A_607A, 0x415B_7B61, 0, 0x6E6F_7065].map tagFlags =
      [0x1D1F, 0x090B, 0x0B1F, 0x0B0A, 0x0B09, 0x0700, 0x081F] := by decide

/-- V-TAG-7 and V-TAG-2. -/
theorem test_tagCheck :
    (after (exec .tagCheck { base with tag := 0x5255_7374 })).errCode = .success ∧
      (after (exec .tagCheck { base with tag := ru1t })).errCode = .invalidBytes := by decide

/-- V-TAG-3 to V-TAG-6. -/
theorem test_tagCheckStr :
    (after (exec (.tagCheckStr 4) { base with tag := ru1t })).errCode = .invalidCharacter ∧
      (after (exec (.tagCheckStr 3) { base with tag := rust })).errCode = .invalidLength ∧
      (after (exec (.tagCheckStr 5) { base with tag := ru1t })).errCode = .invalidLength ∧
      (after (exec (.tagCheckStr 0) base)).errCode = .invalidLength := by decide

/-- V-TAG-12 to V-TAG-16. -/
theorem test_tagCmp :
    [(rust, (0x7275_5374 : Word)), (0x7275_5374, rust), (rust, rust), (iend, rust), (ru1t, 0)].map
        (fun x => (after (exec .tagCmp { base with tag := x.1, tagB := x.2 })).cmp.code) =
      [0b01, 0b10, 0b00, 0b01, 0b10] := by decide

/-! ## Chunk commands -/

/-- V-CHUNK-1 to V-CHUNK-5. -/
theorem test_chunkNew :
    let t := after (exec .chunkNew (chunkOf rust 42 ((kRust.drop 8).take 42)))
    t.crc = 0xABD1_D84E ∧ t.chunkValid = true ∧
      (after (exec .chunkNew (chunkOf iend 0 []))).crc = 0xAE42_6082 ∧
      (after (exec .chunkNew (chunkOf 0x5255_7374 0 []))).crc = 0x794D_6B7E ∧
      (after (exec .chunkNew (chunkOf ru1t 0 []))).errCode = .invalidChunkType ∧
      (after (exec .chunkNew (chunkOf ru1t 53 []))).errCode = .rangeError := by decide

/-- V-CHUNK-7: K_RUST, whose data MSG lands in DBUF. -/
theorem test_chunkParse_rust :
    let t := after (exec .chunkParse (streamOf kRust 54 0))
    t.tag = rust ∧ t.length = 42 ∧ t.dbuf.map (·.2) = (kRust.drop 8).take 42 ∧ t.crc = 0xABD1_D84E ∧ t.inPos = 54 ∧
      t.errCode = .success := by decide

/-- V-CHUNK-8 to V-CHUNK-10 and V-CHUNK-13 to V-CHUNK-20, in that order: the code of each, and the diagnostic registers
of V-CHUNK-10 and V-CHUNK-13. -/
theorem test_chunkParse_errors :
    let run (bs : List Byte) (n p : Word) := after (exec .chunkParse (streamOf bs n p))
    let t := run (kRust.set 3 0x0A) 54 0
    let u := run (kRust.set 6 0x73) 54 0
    [run (kRust.set 3 0x2B) 54 0, run (kRust.set 6 0x31) 54 0, u, t, run (kIend.take 11) 11 0, run kIend 12 12,
        run kIend 12 13, run kIend 65 0, run ([0xFF, 0xFF, 0xFF, 0xFF] ++ kIend) 16 0, run (kIend.set 4 0x31) 12 0,
        run ((kIend.set 4 0x31).take 8) 8 0].map (·.errCode.code) = [5, 4, 6, 6, 5, 5, 8, 8, 5, 4, 5] ∧
      u.crcRx = 0xABD1_D84E ∧ u.crcCalc = 0xEE81_C7C9 ∧ u.tag = 0 ∧ u.inPos = 0 ∧
      t.crcRx = 0x6572_6520 ∧ t.crcCalc = 0x0125_3B86 := by decide

/-- V-CHUNK-23 to V-CHUNK-26: the bytes, an exact fit, and one byte too few. -/
theorem test_chunkSerialize :
    let t := after (exec .chunkSerialize { chunkOf iend 0 [] with outLen := 8 })
    (after (exec .chunkSerialize (chunkOf rust 42 ((kRust.drop 8).take 42)))).obuf = Memory.writeRange [] 0 kRust ∧
      t.obuf = Memory.writeRange [] 8 kIend ∧ t.outLen = 20 ∧ t.crc = 0xAE42_6082 ∧
      (after (exec .chunkSerialize { chunkOf iend 0 [] with outLen := 52 })).outLen = 64 ∧
      (after (exec .chunkSerialize { chunkOf iend 0 [] with outLen := 53 })).errCode = .bufferOverflow := by decide

/-- V-CHUNK-27 and V-CHUNK-28. -/
theorem test_chunkSerialize_order :
    (after (exec .chunkSerialize { chunkOf ru1t 0 [] with outLen := 65 })).errCode = .rangeError ∧
      (after (exec .chunkSerialize { chunkOf ru1t 0 [] with outLen := 53 })).errCode = .invalidChunkType := by decide

/-- P4 line 4: STATUS after an all-zero command word. -/
theorem test_illegal : statusWord (after (exec (decode 0) base)) = 0x0000_0094 := by decide

/-! ## Steps -/

/-- P4 lines 5 and 6: a command through the port, and the sticky bit cleared by its write. -/
theorem test_step_command_and_status_write :
    let s := after (step (after (step ({ base with errSticky := true }.present (asmCommand .crcInit) 0))))
    statusWord s = 0x0000_0004 ∧ statusWord (after (step (s.present (asmW32 .status 4) 0))) = 0 := by decide

/-- P4 line 9: a misaligned register read. -/
theorem test_step_misaligned_read : step (asked (.read 0x02 4)) = .fault (.busError (.read 0x02 4)) := rfl

/-- R61: a STATUS read during a command is answered with BUSY = 1; another access waits. -/
theorem test_step_busy :
    (after (step ((running 1 3).present (asmR32 .status) 0))).reply = some (.word 1) ∧
      (after (step ((running 1 3).present (asmR32 .tag) 0))).port = [⟨asmR32 .tag, 0⟩] := by decide

/-- R58, V-CHUNK-29: a write to DBUF clears CHUNK_VALID, past LENGTH too. -/
theorem test_step_dbuf_write :
    let t := after (step ({ base with chunkValid := true }.present (asmW8 .dbuf 51 0x55) 0))
    t.chunkValid = false ∧ t.dbuf = [(51, 0x55)] := by decide

/-- R201: an access made during reset is refused, where reset is released before the next step too. -/
theorem test_step_during_reset :
    step ((base.driveReset true).present (asmR32 .tag) 0) = .refused (.accessDuringReset (asmR32 .tag)) ∧
      step (((base.driveReset true).present (asmR32 .tag) 0).driveReset false) =
        .refused (.accessDuringReset (asmR32 .tag)) := ⟨rfl, rfl⟩

/-- R200, R201: an access made before reset is not refused: the step goes on, in the reset state. -/
theorem test_step_reset_with_held_access :
    ∃ t, step ((asked (asmW32 .tag 1)).driveReset true) = .next t ∧ t.tag = 0 := ⟨_, rfl, rfl⟩

/-- R200: a CMD write held when reset is applied is no longer pending after it. -/
theorem test_reset_leaves_no_command_pending :
    ({ running 1 3 with port := [⟨asmCommand .crcInit, 0⟩] }.driveReset true).port = [] := rfl

/-! ## Witnesses: the hypotheses of the obligations can be met

One theorem for each obligation with hypotheses, named after it; the letters a, b, … are its clauses in order. -/

theorem witness_DecodeOfEncodeIsIdentity :
    (Instr.crcByte 0xFF).wf = true ∧ (Instr.tagCheckStr 0).wf = true ∧ (Instr.illegal 0xFFFF_FFFF).wf = true := by decide

theorem witness_IllegalWordsRaiseIllegalCommand :
    Due (running 0xFF 0) 0xFF ∧ decode 0xFF = .illegal 0xFF := ⟨⟨⟨rfl, rfl⟩, rfl⟩, by decide⟩

theorem witness_OneChangedByteChangesTheCrc : (0x00 : Byte) ≠ 0xFF := by decide

theorem witness_CrcDataFeedsTheChunkData_a : (chunkOf 0 53 []).length.toNat > (chunkOf 0 53 []).caps.dbuf := by decide

theorem witness_CrcDataFeedsTheChunkData_b :
    let data := List.replicate 52 (0x41 : Byte)
    let s := chunkOf 0 52 data
    s.length.toNat ≤ s.caps.dbuf ∧ data.length = s.length.toNat ∧ Holds s.dbuf 0 data :=
  ⟨by decide, by decide, holds_writeRange [] 0 _⟩

theorem witness_CrcDataFeedsTheChunkData_c :
    let s := chunkOf 0 52 (List.replicate 51 0x41)
    s.length.toNat ≤ s.caps.dbuf ∧ 51 < s.length.toNat ∧ Memory.read s.dbuf 51 = none ∧
      ∀ k, k < 51 → Memory.read s.dbuf k ≠ none := by decide

theorem witness_GeneratorCommandsCompose_a :
    ∃ s₀ bs, exec .crcInit (chunkOf iend 0 []) = .next s₀ ∧ fedAll [.crcByte 0xFF, .crcTag, .crcData] s₀ = some bs :=
  ⟨_, _, rfl, rfl⟩

theorem witness_GeneratorCommandsCompose_b :
    ∃ t, exec .chunkNew (chunkOf iend 0 []) = .next t ∧ t.errCode = .success := ⟨_, rfl, rfl⟩

theorem witness_ChunkCommandsIgnoreCrcState :
    isChunkCommand .chunkSerialize = true ∧ ∃ t, exec .chunkSerialize (chunkOf iend 0 []) = .next t :=
  ⟨rfl, _, rfl⟩

theorem witness_TagCheckTestsTheFourBytes : LetterTag 0x415A_617A ∧ ¬ LetterTag 0x405A_617A ∧ ¬ LetterTag 0x415A_617B := by
  decide

theorem witness_TagCheckStrTestsLengthThenBytes :
    (3 : Byte).toNat ≠ 4 ∧ (255 : Byte).toNat ≠ 4 ∧ (4 : Byte).toNat = 4 ∧ ¬ LetterTag 0x5B41_4141 ∧
      LetterTag 0x7A41_4141 := by decide

theorem witness_TagCmpComparesUnsigned :
    let s (a b : Word) : State := { base with tag := a, tagB := b }
    (s 0xFFFF_FFFF 0xFFFF_FFFF).tag = (s 0xFFFF_FFFF 0xFFFF_FFFF).tagB ∧
      (s 0x7FFF_FFFF 0x8000_0000).tag.toNat < (s 0x7FFF_FFFF 0x8000_0000).tagB.toNat ∧
      (s 1 0).tagB.toNat < (s 1 0).tag.toNat := by decide

theorem witness_TagCmpIsLexicographic : ∃ t, exec .tagCmp { base with tag := iend, tagB := rust } = .next t := ⟨_, rfl⟩

theorem witness_ChunkNewComputesTheCrc_a : (chunkOf rust 53 []).length.toNat > (chunkOf rust 53 []).caps.dbuf := by decide

theorem witness_ChunkNewComputesTheCrc_b :
    (chunkOf ru1t 52 []).length.toNat ≤ (chunkOf ru1t 52 []).caps.dbuf ∧ ¬ LetterTag (chunkOf ru1t 52 []).tag := by decide

theorem witness_ChunkNewComputesTheCrc_c :
    let data := List.replicate 52 (0x41 : Byte)
    let s := chunkOf rust 52 data
    s.length.toNat ≤ s.caps.dbuf ∧ LetterTag s.tag ∧ data.length = s.length.toNat ∧ Holds s.dbuf 0 data :=
  ⟨by decide, by decide, by decide, holds_writeRange [] 0 _⟩

theorem witness_ChunkNewComputesTheCrc_d :
    let s := chunkOf rust 52 (List.replicate 51 0x41)
    s.length.toNat ≤ s.caps.dbuf ∧ LetterTag s.tag ∧ 51 < s.length.toNat ∧ Memory.read s.dbuf 51 = none := by decide

/-- A stream that is one framed chunk of any fields, filling IN_LEN. -/
theorem framed_stream (len tag rx : Word) (data : List Byte) (n : Word) (hl : data.length = len.toNat)
    (hn : n.toNat = 12 + len.toNat) (hc : n.toNat ≤ 64) :
    FramedAt (streamOf (be32bytes len ++ be32bytes tag ++ data ++ be32bytes rx) n 0) len tag data rx := by
  refine ⟨hc, ?_, hl, holds_writeRange [] 0 _⟩
  show 0 + 12 + len.toNat ≤ n.toNat
  omega

theorem witness_ChunkParseRejectsInOrder_a :
    ((streamOf [] 65 0).inLen.toNat > (streamOf [] 65 0).caps.ibuf ∨
      (streamOf [] 65 0).inPos.toNat > (streamOf [] 65 0).inLen.toNat) ∧
    ((streamOf [] 64 65).inLen.toNat > (streamOf [] 64 65).caps.ibuf ∨
      (streamOf [] 64 65).inPos.toNat > (streamOf [] 64 65).inLen.toNat) := by decide

theorem witness_ChunkParseRejectsInOrder_b :
    let s := streamOf kIend 11 0
    s.inLen.toNat ≤ s.caps.ibuf ∧ s.inPos.toNat ≤ s.inLen.toNat ∧ s.inLen.toNat < s.inPos.toNat + 12 := by decide

theorem witness_ChunkParseRejectsInOrder_c :
    let s := streamOf (be32bytes 53) 64 0
    s.inLen.toNat ≤ s.caps.ibuf ∧ s.inPos.toNat + 12 ≤ s.inLen.toNat ∧ Holds s.ibuf s.inPos.toNat (be32bytes 53) ∧
      s.inLen.toNat < s.inPos.toNat + 12 + (53 : Word).toNat :=
  ⟨by decide, by decide, holds_writeRange [] 0 _, by decide⟩

theorem witness_ChunkParseRejectsInOrder_d :
    (∃ s rx, FramedAt s 0 ru1t [] rx) ∧ ¬ LetterTag ru1t :=
  ⟨⟨_, 0, framed_stream 0 ru1t 0 [] 12 rfl (by decide) (by decide)⟩, by decide⟩

theorem witness_ChunkParseRejectsInOrder_e :
    (∃ s, FramedAt s 0 iend [] 0) ∧ LetterTag iend ∧ (0 : Word) ≠ crc32 (be32bytes iend ++ []) :=
  ⟨⟨_, framed_stream 0 iend 0 [] 12 rfl (by decide) (by decide)⟩, by decide, by decide⟩

theorem witness_ChunkParseRejectsInOrder_f :
    let s := streamOf (kIend.take 3) 12 0
    s.inLen.toNat ≤ s.caps.ibuf ∧ s.inPos.toNat + 12 ≤ s.inLen.toNat ∧ Memory.read s.ibuf (s.inPos.toNat + 3) = none := by
  decide

theorem witness_ChunkParseRejectsInOrder_g :
    let s := streamOf (be32bytes 52) 64 0
    s.inLen.toNat ≤ s.caps.ibuf ∧ s.inPos.toNat + 12 + (52 : Word).toNat ≤ s.inLen.toNat ∧
      Holds s.ibuf s.inPos.toNat (be32bytes 52) ∧ Memory.read s.ibuf (s.inPos.toNat + 4) = none :=
  ⟨by decide, by decide, holds_writeRange [] 0 _, by decide⟩

theorem witness_ChunkParseRejectsInOrder_h :
    let s := streamOf (be32bytes 52 ++ be32bytes iend) 64 0
    s.inLen.toNat ≤ s.caps.ibuf ∧ s.inPos.toNat + 12 + (52 : Word).toNat ≤ s.inLen.toNat ∧
      Holds s.ibuf s.inPos.toNat (be32bytes 52 ++ be32bytes iend) ∧ LetterTag iend ∧
      Memory.read s.ibuf (s.inPos.toNat + 8) = none ∧ Memory.read s.ibuf (s.inPos.toNat + 63) = none :=
  ⟨by decide, by decide, holds_writeRange [] 0 _, by decide, by decide, by decide⟩

theorem witness_ChunkTypeIsTestedBeforeDataIsRead :
    let s := streamOf (be32bytes 52 ++ be32bytes ru1t) 64 0
    s.inLen.toNat ≤ s.caps.ibuf ∧ s.inPos.toNat + 12 + (52 : Word).toNat ≤ s.inLen.toNat ∧
      Holds s.ibuf s.inPos.toNat (be32bytes 52 ++ be32bytes ru1t) ∧ ¬ LetterTag ru1t :=
  ⟨by decide, by decide, holds_writeRange [] 0 _, by decide⟩

theorem witness_ChunkParseCommits :
    (∃ s, FramedAt s 52 rust (List.replicate 52 0x41) (crc32 (be32bytes rust ++ List.replicate 52 0x41))) ∧
      LetterTag rust :=
  ⟨⟨_, framed_stream 52 rust _ _ 64 (by decide) (by decide) (by decide)⟩, by decide⟩

theorem witness_ChunkSerializeRejectsInOrder_a :
    (chunkOf rust 53 []).length.toNat > (chunkOf rust 53 []).caps.dbuf ∧
      ({ base with outLen := 65 } : State).outLen.toNat > base.caps.obuf := by decide

theorem witness_ChunkSerializeRejectsInOrder_b :
    let s := { chunkOf ru1t 52 [] with outLen := 64 }
    s.length.toNat ≤ s.caps.dbuf ∧ s.outLen.toNat ≤ s.caps.obuf ∧ ¬ LetterTag s.tag := by decide

theorem witness_ChunkSerializeRejectsInOrder_c :
    let s := { chunkOf rust 52 [] with outLen := 1 }
    s.length.toNat ≤ s.caps.dbuf ∧ s.outLen.toNat ≤ s.caps.obuf ∧ LetterTag s.tag ∧
      s.outLen.toNat + 12 + s.length.toNat > s.caps.obuf := by decide

/-- The last data byte of a chunk that fills OBUF. -/
theorem witness_ChunkSerializeRejectsInOrder_d :
    let s := chunkOf rust 52 (List.replicate 51 0x41)
    s.length.toNat ≤ s.caps.dbuf ∧ LetterTag s.tag ∧ s.outLen.toNat + 12 + s.length.toNat ≤ s.caps.obuf ∧
      51 < s.length.toNat ∧ Memory.read s.dbuf 51 = none := by decide

theorem witness_ChunkSerializeCommits :
    let data := List.replicate 52 (0x41 : Byte)
    let s := chunkOf rust 52 data
    s.caps.Legal ∧ s.length.toNat ≤ s.caps.dbuf ∧ LetterTag s.tag ∧ s.outLen.toNat + 12 + s.length.toNat ≤ s.caps.obuf ∧
      data.length = s.length.toNat ∧ Holds s.dbuf 0 data :=
  ⟨by decide, by decide, by decide, by decide, by decide, holds_writeRange [] 0 _⟩

theorem witness_ChecksumMismatchIsAlwaysReported_a :
    ∃ t, exec .chunkParse (streamOf kIend 12 0) = .next t ∧ t.errCode = .success := ⟨_, rfl, rfl⟩

theorem witness_ChecksumMismatchIsAlwaysReported_b :
    ∃ s t, FramedAt s 0 iend [] 0 ∧ LetterTag iend ∧ (0 : Word) ≠ crc32 (be32bytes iend ++ []) ∧
      exec .chunkParse s = .next t :=
  ⟨_, _, framed_stream 0 iend 0 [] 12 rfl (by decide) (by decide), by decide, by decide, rfl⟩

theorem witness_ParserReadsOnlyTheFramedChunk :
    let s := streamOf kIend 13 0
    Holds s.ibuf s.inPos.toNat (be32bytes 0) ∧
      ∀ k, k < 12 + (0 : Word).toNat →
        Memory.read (Memory.write s.ibuf 12 0xAA) (s.inPos.toNat + k) = Memory.read s.ibuf (s.inPos.toNat + k) :=
  ⟨by unfold Holds; decide, by decide⟩

theorem witness_SerializeThenParseRoundTrips :
    let s := chunkOf iend 0 []
    let u := streamOf kIend 12 0
    ∃ t, exec .chunkSerialize s = .next t ∧ t.errCode = .success ∧ u.inLen.toNat ≤ u.caps.ibuf ∧
      u.inPos.toNat + 12 + s.length.toNat ≤ u.inLen.toNat ∧
      ∀ k, k < 12 + s.length.toNat →
        Memory.read u.ibuf (u.inPos.toNat + k) = Memory.read t.obuf (s.outLen.toNat + k) :=
  ⟨_, rfl, rfl, by decide, by decide, by decide⟩

theorem witness_ParseThenSerializeRoundTrips :
    let s := streamOf kIend 12 0
    ∃ t, exec .chunkParse s = .next t ∧ t.errCode = .success ∧ t.length.toNat ≤ t.caps.dbuf ∧
      t.outLen.toNat + 12 + t.length.toNat ≤ t.caps.obuf := ⟨_, rfl, rfl, by decide, by decide⟩

/-- Three chunks, the host writing other chunk registers between the second and the third. -/
theorem witness_SerializedChunksConcatenate_a :
    ∃ v, Serialized (chunkOf iend 0 []) [(iend, []), (iend, []), (rust, [0x41])] v :=
  ⟨_, .cons (u := chunkOf iend 0 []) (by decide) rfl (fun _ => rfl) rfl rfl (by unfold Holds; decide) rfl rfl <|
    .cons (by decide) rfl (fun _ => rfl) rfl rfl (by unfold Holds; decide) rfl rfl <|
    .cons (u := { after (exec .chunkSerialize (after (exec .chunkSerialize (chunkOf iend 0 [])))) with
        tag := rust, length := 1, dbuf := [(0, 0x41)] })
      (by decide) rfl (fun _ => rfl) rfl rfl (by unfold Holds; decide) rfl rfl (.nil _)⟩

/-- Two chunks that fill OBUF exactly. -/
theorem witness_SerializedChunksConcatenate_b :
    let cs : List (Word × List Byte) := [(iend, []), (rust, List.replicate 40 0x41)]
    base.caps.Legal ∧ (∀ c ∈ cs, LetterTag c.1 ∧ c.2.length ≤ base.caps.dbuf) ∧
      base.outLen.toNat + (cs.flatMap wireChunk).length ≤ base.caps.obuf :=
  ⟨by decide, by decide, le_of_eq rfl⟩

theorem witness_StreamOfChunksParses :
    let cs : List (Word × List Byte) := [(rust, [0x41]), (iend, [])]
    let s := streamOf (cs.flatMap wireChunk) 25 0
    (∀ c ∈ cs, LetterTag c.1) ∧ s.inLen.toNat ≤ s.caps.ibuf ∧
      s.inLen.toNat = s.inPos.toNat + (cs.flatMap wireChunk).length ∧ Holds s.ibuf s.inPos.toNat (cs.flatMap wireChunk) :=
  ⟨by decide, by decide, rfl, holds_writeRange [] 0 _⟩

/-- The hypotheses of OneCorruptedByteIsReported, for byte `j` of the chunk of `s` changed to `b`. -/
def CorruptedAt (s : State) (j : Nat) (b : Byte) : Prop :=
  let t := after (exec .chunkSerialize s)
  let u := streamOf (((List.range (12 + s.length.toNat)).map fun k => (Memory.read t.obuf k).getD 0).set j b)
    (BitVec.ofNat 32 (12 + s.length.toNat)) 0
  exec .chunkSerialize s = .next t ∧ t.errCode = .success ∧ u.inPos = 0 ∧ u.inLen.toNat = 12 + s.length.toNat ∧
    u.inLen.toNat ≤ u.caps.ibuf ∧ j < 12 + s.length.toNat ∧ Memory.read u.ibuf j = some b ∧
    Memory.read t.obuf (s.outLen.toNat + j) ≠ some b ∧
    ∀ k, k < 12 + s.length.toNat → k ≠ j → Memory.read u.ibuf k = Memory.read t.obuf (s.outLen.toNat + k)

/-- A type byte that is no letter, and one that is another letter. -/
theorem witness_OneCorruptedByteIsReported_type :
    CorruptedAt (chunkOf rust 1 [0x41]) 4 0x40 ∧ ¬ IsLetter 0x40 ∧ CorruptedAt (chunkOf rust 1 [0x41]) 7 0x7A ∧
      IsLetter 0x7A :=
  ⟨⟨rfl, by decide⟩, by decide, ⟨rfl, by decide⟩, by decide⟩

/-- The first data byte and the last crc byte. -/
theorem witness_OneCorruptedByteIsReported_data_crc :
    CorruptedAt (chunkOf rust 1 [0x41]) 8 0x42 ∧ CorruptedAt (chunkOf rust 1 [0x41]) 12 0x00 :=
  ⟨⟨rfl, by decide⟩, ⟨rfl, by decide⟩⟩

/-- A length byte that raises the length by one, and one that lowers it to 0. -/
theorem witness_OneCorruptedByteIsReported_length :
    CorruptedAt (chunkOf rust 1 [0x41]) 3 0x02 ∧ CorruptedAt (chunkOf rust 1 [0x41]) 3 0x00 :=
  ⟨⟨rfl, by decide⟩, ⟨rfl, by decide⟩⟩

theorem witness_RegisterCommandsFrame :
    Instr.tagCmp ≠ .chunkParse ∧ Instr.tagCmp ≠ .chunkSerialize ∧ ∃ t, exec .tagCmp base = .next t :=
  ⟨by decide, by decide, _, rfl⟩

theorem witness_ChunkParseFrame :
    let s := streamOf kIend 12 0
    (∃ t, exec .chunkParse s = .next t) ∧ Holds s.ibuf s.inPos.toNat (be32bytes 0) :=
  ⟨⟨_, rfl⟩, by unfold Holds; decide⟩

theorem witness_ChunkSerializeFrame : ∃ t, exec .chunkSerialize { chunkOf iend 0 [] with outLen := 52 } = .next t :=
  ⟨_, rfl⟩

theorem witness_FailingCommandChangesOnlyStatus :
    (∃ t, exec .tagCheck base = .next t ∧ t.errCode ≠ .success) ∧
      ∃ t, exec .chunkParse (streamOf (kIend.set 11 0) 12 0) = .next t ∧ t.errCode = .invalidChecksum :=
  ⟨⟨_, rfl, by decide⟩, _, rfl, by decide⟩

theorem witness_SucceedingCommandKeepsSticky :
    (∃ t, exec .crcInit { base with errSticky := true } = .next t ∧ t.errCode = .success) ∧
      ∃ t, step (asked (asmW32 .tag 1)) = .next t ∧ (asked (asmW32 .tag 1)).resetLine = false ∧
        ∀ w, ¬ Due (asked (asmW32 .tag 1)) w :=
  ⟨⟨_, rfl, rfl⟩, _, rfl, rfl, fun _ h => by cases h.2⟩

theorem witness_EachCommandReportsItsOwnCodes : ∃ t, exec (.illegal 0) base = .next t := ⟨_, rfl⟩

theorem witness_StepRunsTheDecodedCommand :
    Due (running 0x0000_FF02 0) 0x0000_FF02 ∧ (Instr.crcByte 0xFF).wf = true ∧
      (0x0000_FF02 : Word) = encode (.crcByte 0xFF) := ⟨⟨⟨rfl, rfl⟩, rfl⟩, rfl, by decide⟩

theorem witness_AccessesAreHeldWhileBusy_a :
    let s := { running 1 1 with port := [⟨.read 0x04 4, 0⟩, ⟨.read 0x08 4, 0⟩] }
    Released s ∧ s.inflight = some ⟨1, 0 + 1⟩ ∧ s.port = ⟨.read 0x04 4, 0⟩ :: [⟨.read 0x08 4, 0⟩] :=
  ⟨⟨rfl, rfl⟩, rfl, rfl⟩

/-- A write to STATUS, a STATUS read of a wrong width, and an empty queue are no STATUS read. -/
theorem witness_AccessesAreHeldWhileBusy_b :
    let s (p : List Request) : State := { running 1 1 with port := p }
    Released (s []) ∧ (∀ d, (s [⟨.write 0x04 4 4, 0⟩]).port.head? ≠ some ⟨.read 0x04 4, d⟩) ∧
      (∀ d, (s [⟨.read 0x04 1, 0⟩]).port.head? ≠ some ⟨.read 0x04 4, d⟩) ∧
      (∀ d, (s []).port.head? ≠ some ⟨.read 0x04 4, d⟩) := by
  refine ⟨⟨rfl, rfl⟩, ?_, ?_, ?_⟩ <;> intro d h <;> simp at h

theorem witness_AccessesAreHeldWhileBusy_c : Due (running 1 0) 1 ∧ ∃ t, step (running 1 0) = .next t :=
  ⟨⟨⟨rfl, rfl⟩, rfl⟩, _, rfl⟩

theorem witness_EveryCommandEnds : Released (running 1 7) ∧ (running 1 7).inflight = some ⟨1, 7⟩ := ⟨⟨rfl, rfl⟩, rfl⟩

/-- A register access of width 1, a misaligned one, the first offset past the registers, and the first past IBUF. -/
theorem witness_IllegalAccessesAreBusErrors_a :
    base.caps.Legal ∧ AtPort (asked (.read 0x44 4)) (.read 0x44 4) 0 [] ∧ ¬ LegalAccess base.caps 0x00 1 ∧
      ¬ LegalAccess base.caps 0x02 4 ∧ ¬ LegalAccess base.caps 0x44 4 ∧ ¬ LegalAccess base.caps 0x0100_0040 1 := by
  refine ⟨by decide, ⟨⟨rfl, rfl⟩, rfl, rfl⟩, ?_, ?_, ?_, ?_⟩ <;>
  · rw [legalAccess_iff_locate (by decide)]
    decide

theorem witness_IllegalAccessesAreBusErrors_b :
    AtPort (asked (.read 0x40 4)) (.read 0x40 4) 0 [] ∧ LegalAccess base.caps 0x40 4 ∧
      LegalAccess base.caps 0x0100_003F 1 ∧ LegalAccess base.caps 0x0200_0033 1 ∧
      LegalAccess base.caps 0x0300_003F 1 := by
  refine ⟨⟨⟨rfl, rfl⟩, rfl, rfl⟩, ?_, ?_, ?_, ?_⟩ <;>
  · rw [legalAccess_iff_locate (by decide)]
    decide

theorem witness_RegisterReadsAnswerTheirValues : AtPort (asked (.read 0x40 4)) (.read 0x40 4) 0 [] :=
  ⟨⟨rfl, rfl⟩, rfl, rfl⟩

theorem witness_RegisterWritesHaveTheirEffects :
    AtPort (asked (.write 0x00 4 0x21)) (.write 0x00 4 0x21) 0 [] ∧
      AtPort (asked (.write 0x40 4 1)) (.write 0x40 4 1) 0 [] :=
  ⟨⟨⟨rfl, rfl⟩, rfl, rfl⟩, ⟨⟨rfl, rfl⟩, rfl, rfl⟩⟩

/-- The last byte of DBUF, read with and without a value, and written. -/
theorem witness_BufferAccessesReachTheirByte :
    let s := { base with dbuf := [(51, 0x55)] }
    s.caps.Legal ∧ 51 < bufSize s.caps .dbuf ∧
      AtPort (s.present (.read (BitVec.ofNat 32 (0x0200_0000 + 51)) 1) 0)
        (.read (BitVec.ofNat 32 (0x0200_0000 + 51)) 1) 0 [] ∧
      Memory.read (s.buf .dbuf) 51 = some 0x55 ∧ Memory.read (base.buf .dbuf) 51 = none ∧
      AtPort (s.present (.write (BitVec.ofNat 32 (0x0200_0000 + 51)) 1 0xAA) 0)
        (.write (BitVec.ofNat 32 (0x0200_0000 + 51)) 1 0xAA) 0 [] :=
  ⟨by decide, by decide, ⟨⟨rfl, rfl⟩, rfl, rfl⟩, rfl, rfl, ⟨⟨rfl, rfl⟩, rfl, rfl⟩⟩

theorem witness_StatusBitsAreTheirFields :
    AtPort (asked (.write 0x04 4 0xFFFF_FFFF)) (.write 0x04 4 0xFFFF_FFFF) 0 [] ∧
      ∃ t, exec .tagCheck base = .next t ∧ t.errCode ≠ .success :=
  ⟨⟨⟨rfl, rfl⟩, rfl, rfl⟩, _, rfl, by decide⟩

/-- A step with reset applied in the middle of a command, one that the host applied before, and the host's accesses. -/
theorem witness_ResetRestoresTheResetState :
    let s := { running 0x20 3 with tag := rust, resetLine := true, port := [⟨asmCommand .crcInit, 0⟩] }
    (s.resetLine = true ∧ s.madeInReset = none ∧ ∃ t, step s = .next t) ∧ ((running 0x20 3).driveReset true).ResetInv ∧
      HostActs base ((base.driveReset true).present (asmR32 .tag) 0) ∧ base.ResetInv :=
  ⟨⟨rfl, rfl, _, rfl⟩, fun _ => rfl, .present _ _ (.driveReset _ .none), fun h => by cases h⟩

/-- The host releases reset, applies it again and makes a second access before the step. -/
theorem witness_AccessDuringResetIsRefused :
    let s := base.driveReset true
    s.resetLine = true ∧ s.madeInReset = none ∧
      HostActs (s.present (asmR32 .tag) 0)
        ((((s.present (asmR32 .tag) 0).driveReset false).driveReset true).present (asmR32 .crc) 0) ∧
      base.resetLine = false ∧ ∃ t, step s = .next t :=
  ⟨rfl, rfl, .present _ _ (.driveReset _ (.driveReset _ .none)), rfl, _, rfl⟩

theorem witness_FirstAccessAfterResetSeesTheResetState :
    let t := ((running 0x20 3).driveReset true).driveReset false
    (running 0x20 3).madeInReset = none ∧ (running 0x20 3).port = [] ∧
      (t.present (asmR32 .tag) 0).port = ⟨asmR32 .tag, 0⟩ :: [] := ⟨rfl, rfl, rfl⟩

theorem base_inv : base.Inv := by
  refine ⟨by decide, fun b => ?_, fun h => by cases h⟩
  exact resetWith_bufs _ b _

theorem witness_StepKeepsTheInvariant : (running 1 0).Inv ∧ ∃ t, step (running 1 0) = .next t :=
  ⟨⟨base_inv.caps, base_inv.bufs, base_inv.chunk⟩, _, rfl⟩

theorem witness_HostAndStepsKeepTheInvariant :
    (asked (asmW32 .tag 1)).Inv ∧ Reaches (asked (asmW32 .tag 1)) (after (step (asked (asmW32 .tag 1)))) :=
  ⟨⟨base_inv.caps, base_inv.bufs, base_inv.chunk⟩, .step .refl rfl⟩

theorem witness_ChunkValidChangesOnlyAsStated_a :
    let s := { chunkOf iend 0 [] with inflight := some ⟨0x20, 0⟩ }
    ∃ t, step s = .next t ∧ s.chunkValid = false ∧ t.chunkValid = true := ⟨_, rfl, rfl, rfl⟩

/-- By a write to TAG, by one to LENGTH, by one to DBUF's last byte, and by reset. -/
theorem witness_ChunkValidChangesOnlyAsStated_b :
    let s := { base with chunkValid := true }
    ∀ u ∈ [s.present (asmW32 .tag 0) 0, s.present (asmW32 .length 0) 0, s.present (asmW8 .dbuf 51 0) 0,
      { s with resetLine := true }], u.chunkValid = true ∧ (after (step u)).chunkValid = false ∧
        (after (step u)).caps = base.caps := by decide

theorem witness_StickyAndCrcStateChangeOnlyAsStated_a :
    let s := { base with errSticky := true }.present (asmW32 .status 4) 0
    ∃ t, step s = .next t ∧ s.errSticky = true ∧ t.errSticky = false := ⟨_, rfl, rfl, rfl⟩

theorem witness_StickyAndCrcStateChangeOnlyAsStated_b :
    (∃ t, step (running 0x0000_0002 0) = .next t ∧ t.crcState ≠ (running 0x0000_0002 0).crcState) ∧
      ∃ t, step (asked (asmW32 .crcState 0)) = .next t ∧ t.crcState ≠ (asked (asmW32 .crcState 0)).crcState :=
  ⟨⟨_, rfl, by decide⟩, _, rfl, by decide⟩

theorem witness_BuffersAreWrittenOnlyAsStated :
    (∃ t, step (asked (asmW8 .ibuf 63 1)) = .next t ∧ t.ibuf ≠ (asked (asmW8 .ibuf 63 1)).ibuf) ∧
      ∃ t, exec .crcInit base = .next t := ⟨⟨_, rfl, by decide⟩, _, rfl⟩

theorem witness_WaitEndsWhenTheCommandDoes :
    Released (running 1 2) ∧ (running 1 2).inflight = some ⟨1, 2⟩ ∧ (running 1 2).port = [] :=
  ⟨⟨rfl, rfl⟩, rfl, rfl⟩

theorem witness_LoadPseudoInstructionsLoadTheirBytes :
    let bs := List.replicate 52 (0x41 : Byte)
    let s := { base with port := (ldData bs).map (⟨·, 0⟩) }
    let u := { base with port := (ldIn bs).map (⟨·, 0⟩) }
    s.caps.Legal ∧ Released s ∧ s.inflight = none ∧ bs.length ≤ s.caps.dbuf ∧
      s.port = (ldData bs).map (⟨·, 0⟩) ∧ bs.length ≤ u.caps.ibuf ∧ u.port = (ldIn bs).map (⟨·, 0⟩) :=
  ⟨by decide, ⟨rfl, rfl⟩, rfl, by decide, rfl, by decide, rfl⟩

end Sys2Proof.Tests
end

/-! The invariant of the whole block (R5, R37, R38, R69): reset meets it (O53) and every step keeps it (O54). -/

namespace Sys2Proof.Machine

/-! ## What the invariant reads -/

/-- The fields the invariant speaks of. -/
def State.invView (s : State) : Caps × (Buf → Memory) × Bool × Word × Word × Word :=
  (s.caps, s.buf, s.chunkValid, s.length, s.tag, s.crc)

theorem State.Inv.of_invView_eq {s t : State} (h : s.Inv) (e : t.invView = s.invView) : t.Inv := by
  simp only [State.invView, Prod.mk.injEq] at e
  obtain ⟨hcaps, hbuf, hvalid, hlength, htag, hcrc⟩ := e
  have hdbuf : t.dbuf = s.dbuf := congrFun hbuf .dbuf
  obtain ⟨caps, bufs, chunk⟩ := h
  constructor
  case caps => rwa [hcaps]
  case bufs => rwa [State.BufInv, hbuf, hcaps]
  case chunk => rwa [State.ChunkInv, hvalid, hlength, hcaps, htag, hdbuf, hcrc]

/-- Where CHUNK_VALID = 0, R37 asks nothing of the registers. -/
theorem State.chunkInv_of_not_chunkValid {s : State} (h : s.chunkValid = false) : s.ChunkInv := fun hv =>
  absurd (h.symm.trans hv) Bool.false_ne_true

/-- R37 from what the chunk commands have tested and read. -/
theorem State.chunkInv_of_readRange {s : State} {data : List Byte} (hlen : s.length.toNat ≤ s.caps.dbuf)
    (halpha : tagAlpha s.tag = true) (hdata : Memory.readRange s.dbuf 0 s.length.toNat = .ok data)
    (hcrc : s.crc = chunkCrc s.tag data) : s.ChunkInv := fun _ =>
  ⟨hlen, (tagAlpha_iff _).1 halpha, data, (holds_of_readRange hdata).1, (holds_of_readRange hdata).2, hcrc⟩

/-! ## Reset -/

/-- The reset state meets the invariant wherever its capacities are legal. -/
theorem State.inv_resetWith {c : Caps} (h : c.Legal) : (State.resetWith c).Inv :=
  ⟨h, fun b => resetWith_bufs c b _, State.chunkInv_of_not_chunkValid rfl⟩

/-- Applying reset keeps the invariant (R200). -/
theorem State.Inv.applyReset {s : State} (h : s.Inv) : s.applyReset.Inv :=
  (State.inv_resetWith h.caps).of_invView_eq rfl

/-- Settles O53: the capacities meet R5 whatever was chosen, no buffer byte holds a value, and CHUNK_VALID is 0. -/
theorem resetMeetsTheInvariant : Obligations.ResetMeetsTheInvariant :=
  State.inv_resetWith caps_legal

/-! ## The chunk commands -/

/-- CHUNK_NEW's writes make R37 true: CRC is computed from the registers and the bytes read (R145). -/
theorem State.Inv.commitNew {s : State} {data : List Byte} (h : s.Inv) (hlen : s.length.toNat ≤ s.caps.dbuf)
    (halpha : tagAlpha s.tag = true) (hdata : Memory.readRange s.dbuf 0 s.length.toNat = .ok data) :
    (s.commitNew data).Inv :=
  ⟨h.caps, h.bufs, State.chunkInv_of_readRange hlen halpha hdata rfl⟩

/-- CHUNK_SERIALIZE's writes keep OBUF inside its size, and make R37 true as CHUNK_NEW's do (R162). -/
theorem State.Inv.commitSerialize {s : State} {data : List Byte} (h : s.Inv) (hlen : s.length.toNat ≤ s.caps.dbuf)
    (hroom : s.outLen.toNat + 12 + s.length.toNat ≤ s.caps.obuf) (halpha : tagAlpha s.tag = true)
    (hdata : Memory.readRange s.dbuf 0 s.length.toNat = .ok data) : (s.commitSerialize data).Inv := by
  have hfits : s.outLen.toNat + (serialize s.tag s.length data).length ≤ s.caps.obuf := by
    rw [serialize_length, Memory.length_of_readRange hdata]; omega
  refine ⟨h.caps, fun b => ?_, State.chunkInv_of_readRange hlen halpha hdata rfl⟩
  cases b with
  | ibuf => exact h.bufs .ibuf
  | dbuf => exact h.bufs .dbuf
  | obuf =>
    obtain ⟨hwf, hwithin⟩ := h.bufs .obuf
    exact ⟨Memory.wf_writeRange hwf _ _, Memory.within_writeRange hwithin hfits⟩

/-- The data of a framed chunk fits DBUF: it lies inside IBUF with 12 bytes around it (R5, R151). -/
theorem FramedAt.length_le_dbuf {s : State} {len tag rx : Word} {data : List Byte} (hf : FramedAt s len tag data rx)
    (h : s.caps.Legal) : len.toNat ≤ s.caps.dbuf := by
  have hibuf := hf.inLen_le
  have hfits := hf.fits
  obtain ⟨-, hdbuf, -, -⟩ := h
  omega

/-- CHUNK_PARSE's writes put the framed chunk's data at the front of DBUF, so that R37 holds of the chunk they leave in
the registers (R152). -/
theorem State.Inv.commitParse {s : State} {len tag rx : Word} {data : List Byte} (h : s.Inv)
    (hf : FramedAt s len tag data rx) (halpha : tagAlpha tag = true) (p : Nat) :
    (s.commitParse p len tag data (chunkCrc tag data)).Inv := by
  have hlen : len.toNat ≤ s.caps.dbuf := hf.length_le_dbuf h.caps
  have hsize : data.length = len.toNat := hf.data_length
  have hdata : Memory.readRange (Memory.writeRange s.dbuf 0 data) 0 len.toNat = .ok data :=
    hsize ▸ Memory.readRange_writeRange s.dbuf 0 data
  refine ⟨h.caps, fun b => ?_, State.chunkInv_of_readRange hlen halpha hdata rfl⟩
  cases b with
  | ibuf => exact h.bufs .ibuf
  | dbuf =>
    obtain ⟨hwf, hwithin⟩ := h.bufs .dbuf
    have hfits : 0 + data.length ≤ s.caps.dbuf := by omega
    exact ⟨Memory.wf_writeRange hwf _ _, Memory.within_writeRange hwithin hfits⟩
  | obuf => exact h.bufs .obuf

/-! ## The commands -/

/-- A command that is no chunk command writes nothing the invariant reads. -/
theorem exec_invView {i : Instr} {s t : State} (hi : isChunkCommand i = false) (h : exec i s = .next t) :
    t.invView = s.invView := by
  cases i with
  | crcInit => cases h; rfl
  | crcByte b => cases h; rfl
  | crcTag => cases h; rfl
  | crcData => rcases execCrcData_cases h with ⟨-, rfl⟩ | ⟨-, d, -, rfl⟩ <;> rfl
  | tagCheck => simp only [exec, execTagCheck] at h; split at h <;> cases h <;> rfl
  | tagCheckStr n =>
    simp only [exec, execTagCheckStr] at h
    split at h
    · cases h; rfl
    · split at h <;> cases h <;> rfl
  | tagCmp => cases h; rfl
  | chunkNew => cases hi
  | chunkParse => cases hi
  | chunkSerialize => cases hi
  | illegal w => cases h; rfl

/-- Every command keeps the invariant: a failing one writes nothing the invariant reads (R182), a succeeding chunk
command leaves a chunk whose crc is computed from the registers. -/
theorem exec_inv {i : Instr} {s t : State} (hs : s.Inv) (h : exec i s = .next t) : t.Inv := by
  cases i with
  | chunkNew =>
    rcases execChunkNew_cases h with ⟨-, rfl⟩ | ⟨-, -, rfl⟩ | ⟨hlen, halpha, data, hdata, rfl⟩
    · exact hs.of_invView_eq rfl
    · exact hs.of_invView_eq rfl
    · exact (hs.commitNew hlen halpha hdata).of_invView_eq rfl
  | chunkParse =>
    rcases execChunkParse_cases h with ⟨-, rfl⟩ | ⟨-, -, rfl⟩ | ⟨_, -, -, rfl⟩ | ⟨_, -, -, rfl⟩ |
      ⟨len, tag, data, rx, hf, halpha, ⟨-, rfl⟩ | ⟨-, rfl⟩⟩
    iterate 5 exact hs.of_invView_eq rfl
    exact (hs.commitParse hf halpha s.inPos.toNat).of_invView_eq rfl
  | chunkSerialize =>
    rcases execChunkSerialize_cases h with ⟨-, rfl⟩ | ⟨-, rfl⟩ | ⟨-, rfl⟩ | ⟨hlen, hroom, halpha, data, hdata, rfl⟩
    iterate 3 exact hs.of_invView_eq rfl
    exact (hs.commitSerialize hlen hroom halpha hdata).of_invView_eq rfl
  | _ => exact hs.of_invView_eq (exec_invView rfl h)

/-! ## The host port -/

/-- A register write keeps the invariant: one to TAG or LENGTH clears CHUNK_VALID, and no other writes what the
invariant reads (R37, R57). -/
theorem State.Inv.writeReg {s : State} (h : s.Inv) (r : Reg) (v : Word) (d : Nat) : (s.writeReg r v d).Inv := by
  cases r with
  | tag => exact ⟨h.caps, h.bufs, State.chunkInv_of_not_chunkValid rfl⟩
  | length => exact ⟨h.caps, h.bufs, State.chunkInv_of_not_chunkValid rfl⟩
  | status => simp only [State.writeReg]; split <;> exact h.of_invView_eq rfl
  | _ => exact h.of_invView_eq rfl

@[simp] theorem State.pokeByte_caps (s : State) (b : Buf) (i : Nat) (v : Byte) :
    (s.pokeByte b i v).caps = s.caps := by
  cases b <;> rfl

/-- A byte write changes the one buffer it names. -/
theorem State.pokeByte_buf (s : State) (b c : Buf) (i : Nat) (v : Byte) :
    (s.pokeByte b i v).buf c = if c = b then Memory.write (s.buf b) i v else s.buf c := by
  cases b <;> cases c <;> rfl

/-- A byte written inside a buffer leaves every buffer canonical and inside its size. -/
theorem State.BufInv.pokeByte {s : State} (h : s.BufInv) {b : Buf} {i : Nat} (hi : i < bufSize s.caps b) (v : Byte) :
    (s.pokeByte b i v).BufInv := by
  intro c
  rw [State.pokeByte_buf, State.pokeByte_caps]
  split
  · subst c
    obtain ⟨hwf, hwithin⟩ := h b
    exact ⟨Memory.wf_write hwf i v, Memory.within_write hwithin hi v⟩
  · exact h c

/-- A byte written inside a buffer keeps the invariant: one to DBUF clears CHUNK_VALID (R37, R58). -/
theorem State.Inv.pokeByte {s : State} (h : s.Inv) {b : Buf} {i : Nat} (hi : i < bufSize s.caps b) (v : Byte) :
    (s.pokeByte b i v).Inv := by
  refine ⟨(s.pokeByte_caps b i v).symm ▸ h.caps, h.bufs.pokeByte hi v, ?_⟩
  cases b with
  | ibuf => exact h.chunk
  | dbuf => exact State.chunkInv_of_not_chunkValid rfl
  | obuf => exact h.chunk

/-- A performed host access keeps the invariant. -/
theorem performAccess_inv {a : Access} {d : Nat} {s t : State} (hs : s.Inv) (h : performAccess a d s = .next t) :
    t.Inv := by
  rcases performAccess_cases h with ⟨r, rfl⟩ | ⟨off, w, v, r, -, -, rfl⟩ | ⟨off, w, v, b, i, -, -, hi, rfl⟩
  · exact hs.of_invView_eq rfl
  · exact (hs.writeReg r v d).of_invView_eq rfl
  · exact (hs.pokeByte hi (v.setWidth 8)).of_invView_eq rfl

/-- A host turn while a command runs writes nothing the invariant reads (R61). -/
theorem busyTurn_invView {c : InFlight} {s t : State} (h : busyTurn c s = .next t) : t.invView = s.invView := by
  rcases busyTurn_cases c s with e | ⟨_, _, -, -, e⟩ <;> rw [e] at h <;> cases h <;> rfl

/-! ## The step -/

/-- Settles O54: by the kinds of step, each of which keeps the invariant: reset, the engine's, a host turn while a
command runs, an idle one, and a performed access. -/
theorem stepKeepsTheInvariant : Obligations.StepKeepsTheInvariant := by
  intro s t hs h
  rcases step_cases h with ⟨-, -, rfl⟩ | ⟨w, u, -, hu, rfl⟩ | ⟨-, c, -, -, hbusy⟩ | ⟨-, -, -, rfl⟩ |
    ⟨a, d, rest, -, hperf⟩
  · exact hs.applyReset
  · exact (exec_inv hs hu).of_invView_eq rfl
  · exact hs.of_invView_eq (busyTurn_invView hbusy)
  · exact hs
  · exact performAccess_inv (s := { s with port := rest }) (hs.of_invView_eq rfl) hperf

end Sys2Proof.Machine

/-! The state (10_state.md): its derived registers and reset values (O15, O49), what a command writes, where it stops and
what it neither sees nor changes (O33, O22, O39, O40), what the host's writes change (O48), what a step writes, and the
rules of the whole machine that follow (O55 to O58). -/

namespace Sys2Proof.Machine

/-! ## The derived registers -/

/-- Every bit of TAGFLAGS (R27). -/
theorem getLsbD_tagFlags (t : Word) (k : Nat) : (tagFlags t).getLsbD k =
    (isAlpha (tagByte0 t) && decide (k = 0) || isAlpha (tagByte1 t) && decide (k = 1) ||
      isAlpha (tagByte2 t) && decide (k = 2) || isAlpha (tagByte3 t) && decide (k = 3) ||
      tagAlpha t && decide (k = 4) || isCritical t && decide (k = 8) || isPublic t && decide (k = 9) ||
      isReservedBitValid t && decide (k = 10) || isSafeToCopy t && decide (k = 11) || isValid t && decide (k = 12)) := by
  simp (disch := decide) only [tagFlags, BitVec.getLsbD_or, getLsbD_bitAt]

/-- R121: the critical bit is TAG's bit 29. -/
theorem isCritical_eq (t : Word) : isCritical t = !t.getLsbD 29 := by simp [isCritical, tagByte0]

/-- R122: the public bit is TAG's bit 21. -/
theorem isPublic_eq (t : Word) : isPublic t = !t.getLsbD 21 := by simp [isPublic, tagByte1]

/-- R123: the reserved bit is TAG's bit 13. -/
theorem isReservedBitValid_eq (t : Word) : isReservedBitValid t = !t.getLsbD 13 := by
  simp [isReservedBitValid, tagByte2]

/-- R124: the safe-to-copy bit is TAG's bit 5. -/
theorem isSafeToCopy_eq (t : Word) : isSafeToCopy t = t.getLsbD 5 := by simp [isSafeToCopy, tagByte3]

/-- R125: a valid tag is four letters with the reserved bit, TAG's bit 13, clear. -/
theorem isValid_iff (t : Word) : isValid t = true ↔ LetterTag t ∧ t.getLsbD 13 = false := by
  rw [isValid, Bool.and_eq_true, tagAlpha_iff, isReservedBitValid_eq, Bool.not_eq_true']

/-- Settles O15: each bit is read off `getLsbD_tagFlags`; the letter tests are `isAlpha_iff` and `tagAlpha_iff`, and the
property bits are TAG's own. -/
theorem tagflagsBitsFollowTag : Obligations.TagflagsBitsFollowTag := by
  rintro s f rfl
  have hzero : s.tag = 0 → tagFlags s.tag = 0x0000_0700 := fun h => h ▸ by decide
  have hhigh : ∀ k, 13 ≤ k → (tagFlags s.tag).getLsbD k = false := by
    intro k hk
    have hne : k ≠ 0 ∧ k ≠ 1 ∧ k ≠ 2 ∧ k ≠ 3 ∧ k ≠ 4 ∧ k ≠ 8 ∧ k ≠ 9 ∧ k ≠ 10 ∧ k ≠ 11 ∧ k ≠ 12 := by omega
    simp [getLsbD_tagFlags, hne]
  refine ⟨?_, ?_, ?_, ?_, ?_, ?_, ?_, ?_, ?_, ?_, ?_, ?_, ?_, hhigh, hzero⟩ <;>
    simp only [State.readReg, getLsbD_tagFlags, isCritical_eq, isPublic_eq, isReservedBitValid_eq, isSafeToCopy_eq]
  case refine_1 => simp [isAlpha_iff, tagByte0]
  case refine_2 => simp [isAlpha_iff, tagByte1]
  case refine_3 => simp [isAlpha_iff, tagByte2]
  case refine_4 => simp [isAlpha_iff, tagByte3]
  case refine_5 => simp [tagAlpha_iff]
  case refine_13 => simp [isValid_iff]
  all_goals simp

/-- Settles O49: register by register. -/
theorem resetValues : Obligations.ResetValues := by
  refine ⟨fun r v h => ?_, fun b k => ?_, rfl⟩
  · cases r
    all_goals
      simp at h
      subst h
      rfl
  · cases b <;> rfl

/-! ## What a command writes -/

/-- The effect of a command that ends, by its kind. What a command reads and tests is in the `exec…_cases` laws; here is
only what it writes. -/
inductive CommandEffect (s : State) : Instr → State → Prop where
  | fails {i : Instr} {e : ErrCode} (he : e ≠ .success) : CommandEffect s i (s.raise e)
  | passes (i : Instr) : CommandEffect s i s.complete
  | feeds {i : Instr} (hi : isGeneratorCommand i = true) (c : Word) : CommandEffect s i (s.putCrcState c).complete
  | compares (c : Cmp) : CommandEffect s .tagCmp (s.putCmp c).complete
  | constructs (data : List Byte) : CommandEffect s .chunkNew (s.commitNew data).complete
  | mismatches (rx sum : Word) :
    CommandEffect s .chunkParse ((s.putDiagnostics rx sum).raise .invalidChecksum)
  | parses (rx sum : Word) (p : Nat) (len tag : Word) (data : List Byte) :
    CommandEffect s .chunkParse ((s.putDiagnostics rx sum).commitParse p len tag data sum).complete
  | serializes (data : List Byte) : CommandEffect s .chunkSerialize (s.commitSerialize data).complete

/-- Every command that ends has one of the effects. -/
theorem exec_effect {i : Instr} {s t : State} (h : exec i s = .next t) : CommandEffect s i t := by
  cases i with
  | crcInit => cases h; exact .feeds rfl _
  | crcByte b => cases h; exact .feeds rfl _
  | crcTag => cases h; exact .feeds rfl _
  | crcData =>
    rcases execCrcData_cases h with ⟨-, rfl⟩ | ⟨-, data, -, rfl⟩
    · exact .fails (by decide)
    · exact .feeds rfl _
  | tagCheck =>
    simp only [exec, execTagCheck] at h
    split at h <;> cases h
    · exact .passes _
    · exact .fails (by decide)
  | tagCheckStr n =>
    simp only [exec, execTagCheckStr] at h
    split at h
    · cases h; exact .fails (by decide)
    · split at h <;> cases h
      · exact .passes _
      · exact .fails (by decide)
  | tagCmp => cases h; exact .compares _
  | chunkNew =>
    rcases execChunkNew_cases h with ⟨-, rfl⟩ | ⟨-, -, rfl⟩ | ⟨-, -, data, -, rfl⟩
    · exact .fails (by decide)
    · exact .fails (by decide)
    · exact .constructs data
  | chunkParse =>
    rcases execChunkParse_cases h with ⟨-, rfl⟩ | ⟨-, -, rfl⟩ | ⟨_, -, -, rfl⟩ | ⟨_, -, -, rfl⟩ |
      ⟨len, tag, data, rx, -, -, ⟨-, rfl⟩ | ⟨-, rfl⟩⟩
    iterate 4 exact .fails (by decide)
    · exact .mismatches _ _
    · exact .parses _ _ _ _ _ _
  | chunkSerialize =>
    rcases execChunkSerialize_cases h with ⟨-, rfl⟩ | ⟨-, rfl⟩ | ⟨-, rfl⟩ | ⟨-, -, -, data, -, rfl⟩
    iterate 3 exact .fails (by decide)
    exact .serializes data
  | illegal w => cases h; exact .fails (by decide)

/-- Only the generator commands write CRC_STATE (R31). -/
theorem exec_crcState {i : Instr} {s t : State} (hi : isGeneratorCommand i = false) (h : exec i s = .next t) :
    t.crcState = s.crcState := by
  cases exec_effect h with
  | feeds hg => simp [hi] at hg
  | _ => rfl

/-- A command that ends with an error code sets ERR_STICKY (R182). -/
theorem exec_errSticky_of_error {i : Instr} {s t : State} (h : exec i s = .next t) (he : t.errCode ≠ .success) :
    t.errSticky = true := by
  cases exec_effect h with
  | fails => rfl
  | mismatches => rfl
  | _ => exact absurd rfl he

/-- No command clears ERR_STICKY (R24, R183). -/
theorem exec_keeps_errSticky {i : Instr} {s t : State} (h : exec i s = .next t) (hs : s.errSticky = true) :
    t.errSticky = true := by
  cases exec_effect h with
  | fails => rfl
  | mismatches => rfl
  | _ => exact hs

/-- No command clears CHUNK_VALID (R37). -/
theorem exec_keeps_chunkValid {i : Instr} {s t : State} (h : exec i s = .next t) (hs : s.chunkValid = true) :
    t.chunkValid = true := by
  cases exec_effect h with
  | constructs => rfl
  | parses => rfl
  | serializes => rfl
  | _ => exact hs

/-- CHUNK_VALID is set by the success of a chunk command alone (R37). -/
theorem exec_chunkValid_rises {i : Instr} {s t : State} (h : exec i s = .next t) (hs : s.chunkValid = false)
    (ht : t.chunkValid = true) : isChunkCommand i = true ∧ t.errCode = .success := by
  cases exec_effect h with
  | constructs => exact ⟨rfl, rfl⟩
  | parses => exact ⟨rfl, rfl⟩
  | serializes => exact ⟨rfl, rfl⟩
  | _ => exact absurd (hs.symm.trans ht) Bool.false_ne_true

/-- CHUNK_PARSE is the only command that writes DBUF (R38). -/
theorem exec_dbuf {i : Instr} {s t : State} (hi : i ≠ .chunkParse) (h : exec i s = .next t) : t.dbuf = s.dbuf := by
  cases exec_effect h with
  | parses => exact absurd rfl hi
  | _ => rfl

/-- CHUNK_SERIALIZE is the only command that writes OBUF (R38). -/
theorem exec_obuf {i : Instr} {s t : State} (hi : i ≠ .chunkSerialize) (h : exec i s = .next t) :
    t.obuf = s.obuf := by
  cases exec_effect h with
  | serializes => exact absurd rfl hi
  | _ => rfl

/-- Settles O33: by what each kind of command writes; the buffers are in the laws of the commands that store. -/
theorem registerCommandsFrame : Obligations.RegisterCommandsFrame := by
  intro i s t hparse hserialize h
  obtain ⟨-, -, -, hibuf, -⟩ := exec_frame h
  have hbuf : ∀ b k, Memory.read (t.buf b) k = Memory.read (s.buf b) k := by
    intro b k
    cases b with
    | ibuf => rw [State.buf_ibuf, hibuf, State.buf_ibuf]
    | dbuf => rw [State.buf_dbuf, exec_dbuf hparse h, State.buf_dbuf]
    | obuf => rw [State.buf_obuf, exec_obuf hserialize h, State.buf_obuf]
  refine ⟨hbuf, ?_⟩
  cases exec_effect h with
  | fails => simp
  | passes => simp
  | feeds hi => simp [hi]
  | compares => simp
  | constructs => simp
  | mismatches => exact absurd rfl hparse
  | parses => exact absurd rfl hparse
  | serializes => exact absurd rfl hserialize

/-! ## CHUNK_PARSE of a type that is no letter -/

/-- CHUNK_PARSE of a chunk whose declared length fits and whose type is not alphabetic ends at step 4, whatever its data
and its crc field hold (R151). -/
theorem execChunkParse_of_not_alpha {s : State} {len tag : Word} (hcap : s.inLen.toNat ≤ s.caps.ibuf)
    (hfits : s.inPos.toNat + 12 + len.toNat ≤ s.inLen.toNat)
    (hlen : Memory.readRange s.ibuf s.inPos.toNat 4 = .ok (be32bytes len))
    (htag : Memory.readRange s.ibuf (s.inPos.toNat + 4) 4 = .ok (be32bytes tag)) (halpha : tagAlpha tag = false) :
    execChunkParse s = .next (s.raise .invalidChunkType) := by
  unfold execChunkParse
  simp only
  rw [if_neg (by omega), if_neg (by omega), State.withWord_of_ok (b := .ibuf) hlen, if_neg (by omega),
    State.withWord_of_ok (b := .ibuf) htag, halpha]
  rfl

/-- Settles O22: the two words held at IN_POS are all that is read before the type is tested. -/
theorem chunkTypeIsTestedBeforeDataIsRead : Obligations.ChunkTypeIsTestedBeforeDataIsRead := by
  intro s len tag hcap hfits hheld hletter
  obtain ⟨hlen, htag⟩ := holds_append.1 hheld
  exact execChunkParse_of_not_alpha hcap hfits (readRange_of_holds hlen rfl) (readRange_of_holds htag rfl)
    ((tagAlpha_eq_false_iff tag).2 hletter)

/-! ## Where a command can stop -/

/-- An outcome that is a next state, or a stop at a byte of `s` inside its buffer that holds no value (R39). -/
def StopsInside (s : State) (r : Result) : Prop :=
  (∃ t, r = .next t) ∨ ∃ b k, r = .fault (.unwrittenByte b k) ∧ k < bufSize s.caps b ∧ Memory.read (s.buf b) k = none

theorem StopsInside.next (s t : State) : StopsInside s (.next t) := .inl ⟨t, rfl⟩

/-- A read of a range that lies inside its buffer stops inside it. -/
theorem StopsInside.withBytes {s : State} {b : Buf} {i n : Nat} {k : List Byte → Result}
    (hin : i + n ≤ bufSize s.caps b) (hk : ∀ bs, StopsInside s (k bs)) : StopsInside s (s.withBytes b i n k) := by
  rcases s.withBytes_cases b i n k with ⟨bs, -, e⟩ | ⟨j, -, hj, hnone, e⟩ <;> rw [e]
  · exact hk bs
  · exact .inr ⟨b, j, rfl, by omega, hnone⟩

/-- A read of a word that lies inside its buffer stops inside it. -/
theorem StopsInside.withWord {s : State} {b : Buf} {i : Nat} {k : Word → Result}
    (hin : i + 4 ≤ bufSize s.caps b) (hk : ∀ v, StopsInside s (k v)) : StopsInside s (s.withWord b i k) := by
  rcases s.withWord_cases b i k with ⟨v, -, e⟩ | ⟨j, -, hj, hnone, e⟩ <;> rw [e]
  · exact hk v
  · exact .inr ⟨b, j, rfl, by omega, hnone⟩

/-- A read of the chunk data stops inside DBUF where LENGTH is in range. -/
theorem StopsInside.withData {s : State} {k : List Byte → Result} (hlen : ¬ s.length.toNat > s.caps.dbuf)
    (hk : ∀ bs, StopsInside s (k bs)) : StopsInside s (s.withData k) :=
  StopsInside.withBytes (by simp only [bufSize]; omega) hk

/-- CHUNK_PARSE reads inside IN_LEN bytes, and IN_LEN is in range (R151). -/
theorem execChunkParse_stopsInside (s : State) : StopsInside s (execChunkParse s) := by
  unfold execChunkParse
  simp only
  split
  · exact .next s _
  split
  · exact .next s _
  refine .withWord (by simp only [bufSize]; omega) fun len => ?_
  split
  · exact .next s _
  refine .withWord (by simp only [bufSize]; omega) fun tag => ?_
  split
  · exact .next s _
  refine .withWord (by simp only [bufSize]; omega) fun rx => .withBytes (by simp only [bufSize]; omega) fun data => ?_
  simp only
  split <;> exact .next s _

/-- Settles O39: the commands without a buffer read end; the others read only after their range tests. -/
theorem commandsStopOnlyAtUnwrittenBytes : Obligations.CommandsStopOnlyAtUnwrittenBytes := by
  intro i s
  change StopsInside s (exec i s)
  cases i with
  | crcInit => exact .next s _
  | crcByte b => exact .next s _
  | crcTag => exact .next s _
  | crcData =>
    simp only [exec, execCrcData]
    split
    · exact .next s _
    · exact .withData ‹_› fun data => .next s _
  | tagCheck => simp only [exec, execTagCheck]; split <;> exact .next s _
  | tagCheckStr n =>
    simp only [exec, execTagCheckStr]
    split
    · exact .next s _
    · split <;> exact .next s _
  | tagCmp => exact .next s _
  | chunkNew =>
    simp only [exec, execChunkNew]
    split
    · exact .next s _
    split
    · exact .next s _
    · exact .withData ‹_› fun data => .next s _
  | chunkParse => exact execChunkParse_stopsInside s
  | chunkSerialize =>
    simp only [exec, execChunkSerialize]
    split
    · exact .next s _
    split
    · exact .next s _
    split
    · exact .next s _
    · exact .withData (by omega) fun data => .next s _
  | illegal w => exact .next s _

/-! ## Commands and a change of fields they do not read -/

/-- A change of the next state passes into both branches of a test. -/
theorem mapNext_ite (f : State → State) (p : Prop) [Decidable p] (x y : Result) :
    mapNext f (if p then x else y) = if p then mapNext f x else mapNext f y :=
  apply_ite (mapNext f) p x y

/-- A change that leaves the buffers alone passes through a read of bytes. -/
theorem mapNext_withBytes (f : State → State) {s s' : State} (hbuf : s'.buf = s.buf) (b : Buf) (i n : Nat)
    (k : List Byte → Result) :
    mapNext f (s.withBytes b i n k) = s'.withBytes b i n fun bs => mapNext f (k bs) := by
  simp only [State.withBytes, hbuf]
  cases Memory.readRange (s.buf b) i n <;> rfl

/-- A change that leaves the buffers alone passes through a read of a word. -/
theorem mapNext_withWord (f : State → State) {s s' : State} (hbuf : s'.buf = s.buf) (b : Buf) (i : Nat)
    (k : Word → Result) :
    mapNext f (s.withWord b i k) = s'.withWord b i fun v => mapNext f (k v) := by
  simp only [State.withWord, hbuf]
  repeat' split
  all_goals rfl

/-- The state with another queue, answer, reset input and access made during reset: what the host's side holds. -/
def State.withHost (port : List Request) (reply : Option Reply) (line : Bool) (made : Option Access) (s : State) :
    State :=
  { s with port := port, reply := reply, resetLine := line, madeInReset := made }

section

variable (port : List Request) (reply : Option Reply) (line : Bool) (made : Option Access) (s : State)

/-- The host's side holds no buffer. -/
theorem State.withHost_buf : (s.withHost port reply line made).buf = s.buf := by
  funext b
  cases b <;> rfl

theorem mapNext_withHost_withBytes (b : Buf) (i n : Nat) (k : List Byte → Result) :
    mapNext (State.withHost port reply line made) (s.withBytes b i n k) =
      (s.withHost port reply line made).withBytes b i n fun bs => mapNext (State.withHost port reply line made) (k bs) :=
  mapNext_withBytes _ (s.withHost_buf port reply line made) b i n k

theorem mapNext_withHost_withWord (b : Buf) (i : Nat) (k : Word → Result) :
    mapNext (State.withHost port reply line made) (s.withWord b i k) =
      (s.withHost port reply line made).withWord b i fun v => mapNext (State.withHost port reply line made) (k v) :=
  mapNext_withWord _ (s.withHost_buf port reply line made) b i k

/-- A command run after a change of the host's side does what it does before it, and the change is still there. -/
theorem exec_withHost (i : Instr) :
    exec i (s.withHost port reply line made) = mapNext (State.withHost port reply line made) (exec i s) := by
  cases i with
  | crcInit => rfl
  | crcByte b => rfl
  | crcTag => rfl
  | crcData => simp only [exec, execCrcData, State.withData, mapNext_ite, mapNext_withHost_withBytes]; rfl
  | tagCheck => simp only [exec, execTagCheck, mapNext_ite]; rfl
  | tagCheckStr n => simp only [exec, execTagCheckStr, mapNext_ite]; rfl
  | tagCmp => rfl
  | chunkNew => simp only [exec, execChunkNew, State.withData, mapNext_ite, mapNext_withHost_withBytes]; rfl
  | chunkParse =>
    simp only [exec, execChunkParse, parseChecksum, mapNext_ite, mapNext_withHost_withBytes, mapNext_withHost_withWord]
    rfl
  | chunkSerialize =>
    simp only [exec, execChunkSerialize, State.withData, mapNext_ite, mapNext_withHost_withBytes]
    rfl
  | illegal w => rfl

end

/-- Settles O40: what the host's side holds is neither read nor written on any path of a command. -/
theorem commandsIgnoreTheHostPort : Obligations.CommandsIgnoreTheHostPort :=
  fun i s port reply line made => exec_withHost port reply line made s i

/-! ## What the host's writes change -/

theorem State.writeReg_status (s : State) (v : Word) (d : Nat) :
    s.writeReg .status v d = { s with errSticky := if v.getLsbD 2 = true then false else s.errSticky } := by
  simp only [State.writeReg]
  split <;> rfl

@[simp] theorem State.writeReg_caps (s : State) (r : Reg) (v : Word) (d : Nat) : (s.writeReg r v d).caps = s.caps := by
  cases r with
  | status => rw [State.writeReg_status]
  | _ => rfl

@[simp] theorem State.writeReg_ibuf (s : State) (r : Reg) (v : Word) (d : Nat) : (s.writeReg r v d).ibuf = s.ibuf := by
  cases r with
  | status => rw [State.writeReg_status]
  | _ => rfl

/-- Writes to TAG and LENGTH clear CHUNK_VALID; no register write sets it (R37). -/
theorem State.writeReg_chunkValid (s : State) (r : Reg) (v : Word) (d : Nat) :
    (s.writeReg r v d).chunkValid = if r = .tag ∨ r = .length then false else s.chunkValid := by
  cases r with
  | status => rw [State.writeReg_status]; rfl
  | _ => rfl

/-- A write to STATUS with bit 2 set clears ERR_STICKY; no other register write changes it (R24). -/
theorem State.writeReg_errSticky (s : State) (r : Reg) (v : Word) (d : Nat) :
    (s.writeReg r v d).errSticky = if r = .status ∧ v.getLsbD 2 = true then false else s.errSticky := by
  cases r with
  | status => simp [State.writeReg_status]
  | _ => rfl

/-- A write to CRC_STATE is the only register write that changes it (R31). -/
theorem State.writeReg_crcState (s : State) (r : Reg) (v : Word) (d : Nat) :
    (s.writeReg r v d).crcState = if r = .crcState then v else s.crcState := by
  cases r with
  | status => rw [State.writeReg_status]; rfl
  | _ => rfl

/-- A byte written to DBUF clears CHUNK_VALID; one written to another buffer leaves it (R37, R58). -/
theorem State.pokeByte_chunkValid (s : State) (b : Buf) (i : Nat) (v : Byte) :
    (s.pokeByte b i v).chunkValid = if b = .dbuf then false else s.chunkValid := by
  cases b <;> rfl

@[simp] theorem State.pokeByte_errSticky (s : State) (b : Buf) (i : Nat) (v : Byte) :
    (s.pokeByte b i v).errSticky = s.errSticky := by
  cases b <;> rfl

@[simp] theorem State.pokeByte_crcState (s : State) (b : Buf) (i : Nat) (v : Byte) :
    (s.pokeByte b i v).crcState = s.crcState := by
  cases b <;> rfl

/-- A four-byte write at a register's offset is performed on the register (R51, R57). -/
theorem performAccess_write_reg (s : State) (r : Reg) (v : Word) (d : Nat) :
    performAccess (.write r.offset 4 v) d s = .next ((s.writeReg r v d).answer .written) := by
  simp only [performAccess, locate_reg]

/-- Settles O48: the fields by `status_fields`; the write is the register write of STATUS, performed at the port; and a
failing command raises its error. -/
theorem statusBitsAreTheirFields : Obligations.StatusBitsAreTheirFields := by
  refine ⟨?_, ?_, fun i s t => exec_errSticky_of_error⟩
  · intro s v hv
    obtain ⟨hbusy, hrest⟩ := status_fields s.busy s.errSticky s.chunkValid s.errCode.code s.cmp.code v hv
    refine ⟨?_, hrest⟩
    rw [hbusy, State.busy, Option.isSome_iff_exists]
  · intro s v d rest ha
    rw [step_atPort ha]
    have hperf := performAccess_write_reg { s with port := rest } .status v d
    rw [State.writeReg_status] at hperf
    exact hperf

/-! ## What a step writes -/

/-- The effect of a step that answers a next state: reset, a command, one register written by the host, one buffer byte
written by the host, or nothing but the queue, the command in flight and the answer. -/
inductive StepEffect (s : State) : State → Prop where
  | reset (hr : s.resetLine = true) : StepEffect s s.applyReset
  | command {w : Word} {u : State} (hw : Due s w) (hu : exec (decode w) s = .next u) : StepEffect s u.finish
  | quiet (c : Option InFlight) (port : List Request) (reply : Option Reply) :
    StepEffect s { s with inflight := c, port := port, reply := reply }
  | writesReg {r : Reg} {v : Word} {d : Nat} {rest : List Request} (ha : AtPort s (.write r.offset 4 v) d rest) :
    StepEffect s ((State.writeReg { s with port := rest } r v d).answer .written)
  | writesByte {off v : Word} {d : Nat} {rest : List Request} {b : Buf} {i : Nat}
    (ha : AtPort s (.write off 1 v) d rest) (hi : i < bufSize s.caps b) (hoff : off.toNat = b.window + i) :
    StepEffect s ((State.pokeByte { s with port := rest } b i (v.setWidth 8)).answer .written)

/-- Every step that answers a next state has one of the effects. -/
theorem step_effect {s t : State} (h : step s = .next t) : StepEffect s t := by
  rcases step_cases h with ⟨hr, -, rfl⟩ | ⟨w, u, hw, hu, rfl⟩ | ⟨-, c, -, -, hbusy⟩ | ⟨-, -, -, rfl⟩ |
    ⟨a, d, rest, ha, hperf⟩
  · exact .reset hr
  · exact .command hw hu
  · rcases busyTurn_cases c s with e | ⟨q, rest, -, -, e⟩ <;> rw [e] at hbusy <;> cases hbusy
    · exact .quiet _ s.port s.reply
    · exact .quiet _ rest _
  · exact .quiet t.inflight t.port t.reply
  · rcases performAccess_cases hperf with ⟨r, rfl⟩ | ⟨off, w, v, r, rfl, hl, rfl⟩ | ⟨off, w, v, b, i, rfl, hl, -, rfl⟩
    · exact .quiet s.inflight rest (some r)
    · obtain ⟨rfl, rfl⟩ := locate_reg_iff.1 hl
      exact .writesReg ha
    · obtain ⟨rfl, hi, hoff⟩ := locate_byte_offset hl
      exact .writesByte ha hi hoff

/-- No step changes the capacities (R36). -/
theorem step_caps {s t : State} (h : step s = .next t) : t.caps = s.caps := by
  cases step_effect h with
  | reset => rfl
  | command hw hu =>
    obtain ⟨-, -, hcaps, -⟩ := exec_frame hu
    exact hcaps
  | quiet => rfl
  | writesReg => simp
  | writesByte => simp

/-! ## The invariant in every run -/

/-- A run keeps the invariant and the capacities. -/
theorem Reaches.inv {s t : State} (h : Reaches s t) (hs : s.Inv) : t.Inv ∧ t.caps = s.caps := by
  induction h with
  | refl => exact ⟨hs, rfl⟩
  | step _ hstep ih =>
    obtain ⟨hinv, hcaps⟩ := ih
    exact ⟨stepKeepsTheInvariant _ _ hinv hstep, (step_caps hstep).trans hcaps⟩

/-- An access that arrives changes nothing the invariant reads, with reset applied or not (R64, R201). -/
theorem State.present_invView (s : State) (a : Access) (d : Nat) : (s.present a d).invView = s.invView := by
  cases hr : s.resetLine with
  | false => rw [State.present_released hr]; rfl
  | true => rw [State.present_inReset hr]; rfl

/-- Settles O55: a run by induction on its steps; of the host's acts, an access arriving and a release of reset change
nothing the invariant reads, and applying reset keeps it. -/
theorem hostAndStepsKeepTheInvariant : Obligations.HostAndStepsKeepTheInvariant := by
  refine ⟨fun s t hs h => h.inv hs, fun s a d line hs => ⟨?_, ?_⟩⟩
  · have hview := s.present_invView a d
    exact ⟨hs.of_invView_eq hview, congrArg Prod.fst hview⟩
  · cases line with
    | true => exact ⟨hs.applyReset, rfl⟩
    | false => exact ⟨hs.of_invView_eq rfl, rfl⟩

/-! ## What changes CHUNK_VALID, ERR_STICKY, CRC_STATE and the buffers -/

/-- Settles O56: by the effects of a step. Among the commands the chunk commands alone set CHUNK_VALID, and none clears
it; among the host's writes those to TAG, LENGTH and DBUF alone clear it, and none sets it. -/
theorem chunkValidChangesOnlyAsStated : Obligations.ChunkValidChangesOnlyAsStated := by
  constructor
  · intro s t h hs ht
    cases step_effect h with
    | reset => cases ht
    | @command w u hw hu =>
      obtain ⟨hchunk, hcode⟩ := exec_chunkValid_rises hu hs ht
      exact ⟨w, hw, hchunk, hcode⟩
    | quiet => exact absurd (hs.symm.trans ht) Bool.false_ne_true
    | writesReg => simp [State.writeReg_chunkValid, hs] at ht
    | writesByte => simp [State.pokeByte_chunkValid, hs] at ht
  · intro s t h hs ht
    cases step_effect h with
    | reset hr => exact .inl hr
    | command hw hu =>
      have hu := exec_keeps_chunkValid hu hs
      exact absurd (ht.symm.trans hu) Bool.false_ne_true
    | quiet => exact absurd (ht.symm.trans hs) Bool.false_ne_true
    | @writesReg r v d rest ha =>
      have hr : r = .tag ∨ r = .length := by
        by_contra hr
        simp [State.writeReg_chunkValid, hr, hs] at ht
      refine .inr ⟨r.offset, v, 4, d, rest, ha, .inl ⟨rfl, ?_⟩⟩
      exact hr.imp (congrArg Reg.offset) (congrArg Reg.offset)
    | @writesByte off v d rest b i ha hi hoff =>
      have hb : b = .dbuf := by simpa [State.pokeByte_chunkValid, hs] using ht
      subst hb
      exact .inr ⟨off, v, 1, d, rest, ha, .inr ⟨rfl, i, hi, hoff⟩⟩

/-- Settles O57: by the effects of a step. No command clears ERR_STICKY and only the generator commands write CRC_STATE;
of the host's writes each register's own is the only one that changes it. -/
theorem stickyAndCrcStateChangeOnlyAsStated : Obligations.StickyAndCrcStateChangeOnlyAsStated := by
  constructor
  · intro s t h hs ht
    cases step_effect h with
    | reset hr => exact .inl hr
    | command hw hu =>
      have hu := exec_keeps_errSticky hu hs
      exact absurd (ht.symm.trans hu) Bool.false_ne_true
    | quiet => exact absurd (ht.symm.trans hs) Bool.false_ne_true
    | @writesReg r v d rest ha =>
      have hr : r = .status ∧ v.getLsbD 2 = true := by simpa [State.writeReg_errSticky, hs] using ht
      obtain ⟨rfl, hv⟩ := hr
      exact .inr ⟨v, d, rest, ha, hv⟩
    | writesByte => simp [hs] at ht
  · intro s t h hne
    cases step_effect h with
    | reset hr => exact .inl hr
    | @command w u hw hu =>
      refine .inr (.inl ⟨w, hw, ?_⟩)
      by_contra hg
      have hu := exec_crcState (Bool.eq_false_of_not_eq_true hg) hu
      exact hne hu
    | quiet => exact absurd rfl hne
    | @writesReg r v d rest ha =>
      have hr : r = .crcState := by
        by_contra hr
        simp [State.writeReg_crcState, hr] at hne
      subst hr
      exact .inr (.inr ⟨v, d, rest, ha, rfl⟩)
    | writesByte => simp at hne

/-- Settles O58: IBUF by the effects of a step, of which only reset and a byte written to IBUF change it; DBUF and OBUF
by those of a command. -/
theorem buffersAreWrittenOnlyAsStated : Obligations.BuffersAreWrittenOnlyAsStated := by
  constructor
  · intro s t h hne
    cases step_effect h with
    | reset hr => exact .inl hr
    | command hw hu =>
      obtain ⟨-, -, -, hibuf, -⟩ := exec_frame hu
      exact absurd hibuf hne
    | quiet => exact absurd rfl hne
    | writesReg => simp at hne
    | @writesByte off v d rest b i ha hi hoff =>
      cases b with
      | ibuf => exact .inr ⟨off, v, d, rest, i, ha, hi, hoff⟩
      | dbuf => exact absurd rfl hne
      | obuf => exact absurd rfl hne
  · intro i s t h
    obtain ⟨-, -, -, hibuf, -⟩ := exec_frame h
    exact ⟨hibuf, fun hi => exec_dbuf hi h, fun hi => exec_obuf hi h⟩

end Sys2Proof.Machine

/-! The host port (20_memory.md): what an access at the port reaches and answers (O44 to O47), and what is held while a
command runs (O42). -/

namespace Sys2Proof.Machine

/-! ## While a command runs -/

/-- A STATUS read is a four-byte read at offset 0x04 (R22, R61). -/
theorem isStatusRead_iff {a : Access} : a.isStatusRead = true ↔ a = .read 0x04 4 := by
  cases a <;> simp [Access.isStatusRead, Reg.offset]

/-- A STATUS read at the head of the queue is answered at once (R61). -/
theorem busyTurn_of_statusRead {s : State} {d : Nat} {rest : List Request} (hp : s.port = ⟨.read 0x04 4, d⟩ :: rest)
    (c : InFlight) :
    busyTurn c s = .next { s with
      inflight := some ⟨c.word, c.delay - 1⟩, port := rest, reply := some (.word (statusWord s)) } := by
  simp only [busyTurn, hp, isStatusRead_iff.2, if_true, State.answer]

/-- With any other access at its head, or none, the queue is held (R61). -/
theorem busyTurn_of_no_statusRead {s : State} (hp : ∀ d, s.port.head? ≠ some ⟨.read 0x04 4, d⟩) (c : InFlight) :
    busyTurn c s = .next { s with inflight := some ⟨c.word, c.delay - 1⟩ } := by
  rcases busyTurn_cases c s with held | ⟨⟨a, d⟩, rest, hport, hread, -⟩
  · exact held
  · obtain rfl := isStatusRead_iff.1 hread
    exact absurd (congrArg List.head? hport) (hp d)

/-- The engine's turn is the command, then the fall of BUSY (R180). -/
theorem engineTurn_eq_mapNext (w : Word) (s : State) : engineTurn w s = mapNext State.finish (exec (decode w) s) := by
  simp only [engineTurn, mapNext]
  cases exec (decode w) s <;> rfl

/-- A changed next state comes of a next state. -/
theorem mapNext_eq_next {f : State → State} {r : Result} {t : State} (h : mapNext f r = .next t) :
    ∃ u, r = .next u ∧ f u = t := by
  cases r with
  | next u => cases h; exact ⟨u, rfl, rfl⟩
  | fault e => cases h
  | refused e => cases h

/-- Settles O42: the first two parts by the two kinds of host turn during a command; the third since no command touches
the queue or the answer. -/
theorem accessesAreHeldWhileBusy : Obligations.AccessesAreHeldWhileBusy := by
  refine ⟨fun s w n d rest hr hi hp => ⟨?_, ?_⟩, fun s w n hr hi hp => ?_, fun s t w hd h => ?_⟩
  · rw [step_busy hr hi, busyTurn_of_statusRead hp]
    rfl
  · obtain ⟨hfields, -, -⟩ := statusBitsAreTheirFields
    obtain ⟨hbusy, -⟩ := hfields s _ rfl
    exact hbusy.2 ⟨_, hi⟩
  · rw [step_busy hr hi, busyTurn_of_no_statusRead hp]
    rfl
  · rw [step_due hd, engineTurn_eq_mapNext] at h
    obtain ⟨u, hu, rfl⟩ := mapNext_eq_next h
    obtain ⟨-, -, -, -, -, -, hport, hreply, -⟩ := exec_frame hu
    exact ⟨rfl, hport, hreply⟩

/-! ## Bus errors -/

/-- An access is a bus error, named whole, where it reaches nothing, and nowhere else (R54, R55). -/
theorem performAccess_busError_iff {a e : Access} {d : Nat} {s : State} :
    performAccess a d s = .fault (.busError e) ↔ locate s.caps a.offset a.width = none ∧ e = a := by
  cases a with
  | read off w =>
    simp only [performAccess, Access.offset, Access.width]
    cases locate s.caps off w with
    | none => simp [eq_comm]
    | some target =>
      cases target with
      | reg r => simp
      | byte b i =>
        dsimp only
        cases Memory.read (s.buf b) i <;> simp
  | write off w v =>
    simp only [performAccess, Access.offset, Access.width]
    cases locate s.caps off w with
    | none => simp [eq_comm]
    | some target => cases target <;> simp

/-- Settles O44: the port performs the access, which is a bus error exactly where it reaches nothing, and the accesses
that reach something are the legal ones. -/
theorem illegalAccessesAreBusErrors : Obligations.IllegalAccessesAreBusErrors := by
  intro s a d rest hc ha
  rw [step_atPort ha, legalAccess_iff_locate hc]
  refine ⟨fun hillegal => ?_, fun hlegal e h => ?_⟩
  · exact performAccess_busError_iff.2 ⟨Option.not_isSome_iff_eq_none.1 hillegal, rfl⟩
  · obtain ⟨hnone, -⟩ := performAccess_busError_iff.1 h
    exact Option.not_isSome_iff_eq_none.2 hnone hlegal

/-! ## Registers -/

/-- The queue is no register (R22). -/
theorem State.readReg_port (s : State) (rest : List Request) (r : Reg) :
    State.readReg { s with port := rest } r = s.readReg r := by
  cases r <;> rfl

/-- A register write neither reads nor writes the queue and the answer (R57). -/
theorem State.writeReg_port_answer (s : State) (rest : List Request) (r : Reg) (v : Word) (d : Nat) (a : Reply) :
    (State.writeReg { s with port := rest } r v d).answer a =
      { s.writeReg r v d with port := rest, reply := some a } := by
  cases r with
  | status => simp only [State.writeReg_status, State.answer]
  | _ => rfl

/-- A write to STATUS clears ERR_STICKY where its bit 2 is 1, as a Boolean equation (R24). -/
theorem State.writeReg_status_and (s : State) (v : Word) (d : Nat) :
    s.writeReg .status v d = { s with errSticky := s.errSticky && !v.getLsbD 2 } := by
  rw [State.writeReg_status]
  cases v.getLsbD 2 <;> simp

/-- A read of a register at the port answers its value and changes nothing else (R56). -/
theorem step_read_reg {s : State} {r : Reg} {d : Nat} {rest : List Request} (ha : AtPort s (.read r.offset 4) d rest) :
    step s = .next { s with port := rest, reply := some (.word (s.readReg r)) } := by
  rw [step_atPort ha]
  simp only [performAccess, locate_reg, State.readReg_port, State.answer]

/-- A write of a register at the port writes the register and changes nothing else (R57). -/
theorem step_write_reg {s : State} {r : Reg} {v : Word} {d : Nat} {rest : List Request}
    (ha : AtPort s (.write r.offset 4 v) d rest) :
    step s = .next { s.writeReg r v d with port := rest, reply := some .written } := by
  rw [step_atPort ha, performAccess_write_reg, State.writeReg_port_answer]

/-- Settles O45: the table of offsets and values is that of the registers, in their order. -/
theorem registerReadsAnswerTheirValues : Obligations.RegisterReadsAnswerTheirValues := by
  intro s d rest off value hmem ha
  replace hmem : (off, value) ∈ allRegs.map fun r => (r.offset, s.readReg r) := hmem
  obtain ⟨r, -, hr⟩ := List.mem_map.1 hmem
  cases hr
  exact step_read_reg ha

/-- Settles O46: the table of offsets and effects is that of the registers, in their order. -/
theorem registerWritesHaveTheirEffects : Obligations.RegisterWritesHaveTheirEffects := by
  intro s v off d rest t hmem ha
  replace hmem : (off, t) ∈ allRegs.map fun r => (r.offset, s.writeReg r v d) := by
    simp only [allRegs, List.map_cons, State.writeReg_status_and]
    exact hmem
  obtain ⟨r, -, hr⟩ := List.mem_map.1 hmem
  cases hr
  exact step_write_reg ha

/-! ## Buffer bytes -/

/-- A one-byte access at a byte's own offset reaches it: the offset is below 2^32, so it does not wrap (R5, R52). -/
theorem locate_byte {c : Caps} (hc : c.Legal) {b : Buf} {i : Nat} (hi : i < bufSize c b) :
    locate c (BitVec.ofNat 32 (b.window + i)) 1 = some (.byte b i) := by
  have hsize : bufSize c b ≤ windowSize := bufSize_le hc b
  have hfits : b.window + i < 2 ^ 32 := by
    cases b <;> simp only [Buf.window, windowSize] at * <;> omega
  exact (locate_byte_iff hc).2 ⟨rfl, hi, by rw [BitVec.toNat_ofNat, Nat.mod_eq_of_lt hfits]⟩

/-- The queue is no buffer (R38). -/
theorem State.buf_port (s : State) (rest : List Request) (b : Buf) :
    State.buf { s with port := rest } b = s.buf b := by
  cases b <;> rfl

/-- The answer is no buffer (R38). -/
@[simp] theorem State.answer_buf (s : State) (r : Reply) (b : Buf) : (s.answer r).buf b = s.buf b := by
  cases b <;> rfl

/-- A byte written is read back, and every other byte of the three buffers reads as before (R58). -/
theorem State.read_pokeByte (s : State) (b c : Buf) (i k : Nat) (v : Byte) :
    Memory.read ((s.pokeByte b i v).buf c) k = if (c, k) = (b, i) then some v else Memory.read (s.buf c) k := by
  rw [State.pokeByte_buf]
  by_cases hc : c = b
  · subst c
    by_cases hk : k = i
    · subst k
      simp [Memory.read_write_same]
    · simp [hk, Memory.read_write_other _ v hk]
  · simp [hc]

/-- A byte write changes the buffers and CHUNK_VALID, which one to DBUF clears, and nothing else (R58). -/
theorem State.pokeByte_frame (s : State) (b : Buf) (i : Nat) (v : Byte) :
    s.pokeByte b i v = { s with
      ibuf := (s.pokeByte b i v).ibuf, dbuf := (s.pokeByte b i v).dbuf, obuf := (s.pokeByte b i v).obuf,
      chunkValid := s.chunkValid && b != .dbuf } := by
  cases b <;> simp [State.pokeByte]

/-- Settles O47: the access reaches its byte; a read answers it or stops at one that holds no value, and a write is that
of the byte. -/
theorem bufferAccessesReachTheirByte : Obligations.BufferAccessesReachTheirByte := by
  intro s b base i d rest hc hmem hi
  obtain rfl : base = b.window := by cases b <;> simpa [Buf.window] using hmem
  have hreach : locate s.caps (BitVec.ofNat 32 (b.window + i)) 1 = some (.byte b i) := locate_byte hc hi
  refine ⟨fun ha => ?_, fun v ha => ?_⟩
  · rw [step_atPort ha]
    refine ⟨fun x hx => ?_, fun hx => ?_⟩ <;> simp only [performAccess, hreach, State.buf_port, hx, State.answer]
  · have hstep : step s = .next ((State.pokeByte { s with port := rest } b i (v.setWidth 8)).answer .written) := by
      rw [step_atPort ha]
      simp only [performAccess, hreach]
    refine ⟨_, hstep, ?_, fun c k hne => ?_, ?_⟩
    · rw [State.answer_buf, State.read_pokeByte, if_pos rfl]
    · rw [State.answer_buf, State.read_pokeByte, if_neg hne, State.buf_port]
    · rw [State.pokeByte_frame]
      rfl

end Sys2Proof.Machine

/-! The encoding (30_encoding.md): the decoder and the encoder undo each other (O2, O3), which words are illegal (O4), the
words of the table (O1), the engine's step (O41), and the pseudo-instructions WAIT, LDDATA and LDIN (O59, O60). -/

namespace Sys2Proof

/-! ## The word of a row -/

/-- OP of a row's word is the row's, whatever ARG is (R70). -/
theorem Row.opField_word (r : Row) (a : Byte) : opField (r.word a) = opField r.pattern := by
  apply BitVec.eq_of_getLsbD_eq
  intro i hi
  simp [opField, Row.word, hi]

/-- RSVD of a row's word is the row's, whatever ARG is (R70). -/
theorem Row.rsvdField_word (r : Row) (a : Byte) : rsvdField (r.word a) = rsvdField r.pattern := by
  apply BitVec.eq_of_getLsbD_eq
  intro i hi
  have hclear : a.getLsbD (16 + i - 8) = false := BitVec.getLsbD_of_ge _ _ (by omega)
  simp [rsvdField, Row.word, hi, hclear]

/-- ARG of a row's word is the one filled in, the row's own being 0 (R70, R72). -/
theorem Row.argField_word {r : Row} (hr : argField r.pattern = 0) (a : Byte) : argField (r.word a) = a := by
  have harg : (a.setWidth 32 <<< 8).extractLsb' 8 8 = a := by
    apply BitVec.eq_of_getLsbD_eq
    intro i hi
    have hin : 8 + i < 32 := by omega
    simp [hi, hin]
  calc argField (r.word a)
    _ = argField r.pattern ||| (a.setWidth 32 <<< 8).extractLsb' 8 8 := BitVec.extractLsb'_or
    _ = a := by rw [hr, harg]; exact BitVec.zero_or

/-- Every match value of the table has ARG = 0 (R72). -/
theorem Mnemonic.argField_pattern (m : Mnemonic) : argField m.row.pattern = 0 := by
  cases m <;> decide

/-- The word of a row selects it, at every ARG where it takes one and at 0 where it takes none (R72). -/
theorem Mnemonic.selects_word {m : Mnemonic} {a : Byte} (h : m.row.mask = argFree ∨ a = 0) :
    m.row.selects (m.row.word a) = true := by
  rcases h with hmask | rfl
  · have hrow : m.row = ⟨m.row.mnemonic, m.row.pattern, argFree⟩ := by rw [← hmask]
    rw [hrow, selects_argFree _ m.argField_pattern]
    exact ⟨Row.opField_word _ a, Row.rsvdField_word _ a⟩
  · cases m <;> decide

/-! ## The decoder -/

/-- A word decodes to the command of the row it selects, since it selects no other (R73). -/
theorem decode_of_selects {r : Row} (hr : r ∈ opcodeTable) {w : Word} (hw : r.selects w = true) :
    decode w = r.mnemonic.command (argField w) := by
  cases hfind : opcodeTable.find? (·.selects w) with
  | none => exact absurd hw (List.find?_eq_none.1 hfind r hr)
  | some q =>
    obtain ⟨hq, hqw⟩ := selects_of_find hfind
    have hop : opField r.pattern = opField q.pattern :=
      (opField_of_selects hr hw).symm.trans (opField_of_selects hq hqw)
    have hrq : r = q := List.inj_on_of_nodup_map (List.pairwise_map.2 opcodeTable_rows_disjoint) hr hq hop
    rw [decode, hfind, hrq]

/-- The word of a row decodes to the row's command at the ARG filled in (R70 to R73). -/
theorem decode_word {m : Mnemonic} {a : Byte} (h : m.row.mask = argFree ∨ a = 0) :
    decode (m.row.word a) = m.command a := by
  have hrow : m.row ∈ opcodeTable := List.mem_map_of_mem (by cases m <;> decide)
  have hname : m.row.mnemonic = m := by cases m <;> rfl
  rw [decode_of_selects hrow (Mnemonic.selects_word h), Row.argField_word m.argField_pattern, hname]

/-- No row's command is the illegal one (R72). -/
theorem Mnemonic.command_ne_illegal (m : Mnemonic) (a : Byte) (w : Word) : m.command a ≠ .illegal w := by
  cases m <;> exact Instr.noConfusion

/-- Every row's command is well formed, at every ARG (R71). -/
theorem Mnemonic.command_wf (m : Mnemonic) (a : Byte) : (m.command a).wf = true := by
  cases m <;> rfl

/-- A word is illegal for the decoder iff it meets one of R74's conditions. -/
theorem decode_eq_illegal_iff (w : Word) : decode w = .illegal w ↔ isIllegalWord w = true := by
  rw [isIllegalWord_iff]
  constructor
  · intro h
    rcases decode_cases w with ⟨m, a, hcommand, -⟩ | ⟨-, hnone⟩
    · exact absurd (hcommand.symm.trans h) (m.command_ne_illegal a w)
    · exact hnone
  · intro hnone
    have hfind : opcodeTable.find? (·.selects w) = none :=
      List.find?_eq_none.2 fun r hr => Bool.eq_false_iff.1 (hnone r hr)
    rw [decode, hfind]

/-- Settles O2: a command of the table by its row, the illegal one by R74's conditions. -/
theorem decodeOfEncodeIsIdentity : Obligations.DecodeOfEncodeIsIdentity := by
  intro i hi
  cases i with
  | crcInit => exact decode_word (m := .crcInit) (.inr rfl)
  | crcByte b => exact decode_word (m := .crcByte) (.inl rfl)
  | crcTag => exact decode_word (m := .crcTag) (.inr rfl)
  | crcData => exact decode_word (m := .crcData) (.inr rfl)
  | tagCheck => exact decode_word (m := .tagCheck) (.inr rfl)
  | tagCheckStr n => exact decode_word (m := .tagCheckStr) (.inl rfl)
  | tagCmp => exact decode_word (m := .tagCmp) (.inr rfl)
  | chunkNew => exact decode_word (m := .chunkNew) (.inr rfl)
  | chunkParse => exact decode_word (m := .chunkParse) (.inr rfl)
  | chunkSerialize => exact decode_word (m := .chunkSerialize) (.inr rfl)
  | illegal w => exact (decode_eq_illegal_iff w).2 hi

/-- Settles O3: the word is that of the row it selects, or it selects none and the illegal command carries it. -/
theorem encodeOfDecodeIsIdentity : Obligations.EncodeOfDecodeIsIdentity := by
  intro w
  rcases decode_cases w with ⟨m, a, hcommand, hencode⟩ | ⟨hillegal, -⟩
  · exact ⟨hcommand ▸ m.command_wf a, hencode⟩
  · have hwf : isIllegalWord w = true := (decode_eq_illegal_iff w).1 hillegal
    rw [hillegal]
    exact ⟨hwf, rfl⟩

/-- Settles O1: each command's word is the one written out, and the three illegal words meet R74's conditions: OP 0, an
ARG on CRC_INIT, and RSVD not 0. -/
theorem tableWordsDecodeToTheirCommands : Obligations.TableWordsDecodeToTheirCommands := by
  have hdecode := decodeOfEncodeIsIdentity
  exact ⟨hdecode .crcInit rfl, hdecode (.crcByte 0x31) rfl, hdecode .crcTag rfl, hdecode .crcData rfl,
    hdecode .tagCheck rfl, hdecode (.tagCheckStr 4) rfl, hdecode .tagCmp rfl, hdecode .chunkNew rfl,
    hdecode .chunkParse rfl, hdecode .chunkSerialize rfl, hdecode (.illegal 0x0000_0000) (by decide),
    hdecode (.illegal 0x0000_0101) (by decide), hdecode (.illegal 0x0001_0012) (by decide)⟩

/-! ## Illegal words -/

/-- The OP values of the table, by number (R72). -/
theorem mem_ops_iff (o : Byte) : o ∈ argOps ++ plainOps ↔
    o.toNat ∈ [0x01, 0x02, 0x03, 0x04, 0x10, 0x11, 0x12, 0x20, 0x21, 0x22] := by
  revert o; decide

/-- The OP values of the commands that take no ARG, by number (R72, R74). -/
theorem mem_plainOps_iff (o : Byte) : o ∈ plainOps ↔
    o.toNat ∈ [0x01, 0x03, 0x04, 0x10, 0x12, 0x20, 0x21, 0x22] := by
  revert o; decide

/-- R74's three conditions, as propositions. -/
theorem isIllegalWord_iff_fields (w : Word) : isIllegalWord w = true ↔
    opField w ∉ argOps ++ plainOps ∨ rsvdField w ≠ 0 ∨ (argField w ≠ 0 ∧ opField w ∈ plainOps) := by
  simp only [isIllegalWord, opField, rsvdField, argField, Bool.or_eq_true, Bool.and_eq_true, Bool.not_eq_true',
    ← Bool.not_eq_true, List.contains_iff_mem, bne_iff_ne, or_assoc]

end Sys2Proof

namespace Sys2Proof.Machine

/-- Settles O4: the words by `decode_eq_illegal_iff`; the effect is that of the illegal command, run by the engine. -/
theorem illegalWordsRaiseIllegalCommand : Obligations.IllegalWordsRaiseIllegalCommand := by
  refine ⟨fun w => ?_, fun w s => rfl, fun w s hdue hw => ?_, rfl⟩
  · rw [decode_eq_illegal_iff, isIllegalWord_iff_fields, mem_ops_iff, mem_plainOps_iff]
    rfl
  · rw [step_due hdue, engineTurn, hw]
    rfl

/-- Settles O41: the due step is the engine's, and a command's word decodes to the command. -/
theorem stepRunsTheDecodedCommand : Obligations.StepRunsTheDecodedCommand := by
  intro s w hdue
  have hstep : step s = mapNext State.finish (exec (decode w) s) :=
    (step_due hdue).trans (engineTurn_eq_mapNext w s)
  refine ⟨hstep, fun i hi hw => ?_⟩
  rw [hw, decodeOfEncodeIsIdentity i hi] at hstep
  exact hstep

/-! ## WAIT -/

/-- A STATUS read made on an empty queue is the whole queue (R64, R77). -/
theorem present_status {s : State} (hr : Released s) (hp : s.port = []) :
    Released (s.present (asmR32 .status) 0) ∧ (s.present (asmR32 .status) 0).inflight = s.inflight ∧
      (s.present (asmR32 .status) 0).port = [⟨asmR32 .status, 0⟩] := by
  rw [State.present_released hr.1, hp]
  exact ⟨hr, rfl, rfl⟩

/-- STATUS has BUSY = 0 where no command is in flight (R24). -/
theorem readReg_status_idle {s : State} (hi : s.inflight = none) : (s.readReg .status).getLsbD 0 = false := by
  obtain ⟨hfields, -, -⟩ := statusBitsAreTheirFields
  obtain ⟨hbusy, -⟩ := hfields s _ rfl
  simpa [hi] using hbusy

/-- A poll whose read is answered by its first step is that step. -/
theorem pollStatus_of_answered {s t : State} (h : step (s.present (asmR32 .status) 0) = .next t) (ht : t.port = []) :
    pollStatus s = .next t := by
  simp [pollStatus, h, ht]

/-- A poll whose read is held by its first step takes a second (R61). -/
theorem pollStatus_of_held {s t : State} (h : step (s.present (asmR32 .status) 0) = .next t) (ht : t.port ≠ []) :
    pollStatus s = step t := by
  simp [pollStatus, h, ht]

/-- A poll stops where its first step does. -/
theorem pollStatus_of_fault {s : State} {f : Fault} (h : step (s.present (asmR32 .status) 0) = .fault f) :
    pollStatus s = .fault f := by
  simp only [pollStatus, h]

/-- A poll while the command has turns left takes one of them and sees BUSY = 1 (R61). -/
theorem pollStatus_busy {s : State} {w : Word} {n : Nat} (hr : Released s) (hi : s.inflight = some ⟨w, n + 1⟩)
    (hp : s.port = []) : ∃ t, pollStatus s = .next t ∧ Released t ∧ t.inflight = some ⟨w, n⟩ ∧ t.port = [] ∧
      t.sawIdle = false := by
  obtain ⟨hreleased, hinflight, hport⟩ := present_status hr hp
  obtain ⟨hanswered, -, -⟩ := accessesAreHeldWhileBusy
  obtain ⟨hstep, hbusy⟩ := hanswered _ w n 0 [] hreleased (hinflight.trans hi) hport
  refine ⟨_, pollStatus_of_answered hstep rfl, hreleased, rfl, rfl, ?_⟩
  simp only [State.sawIdle, hbusy, Bool.not_true]

/-- A poll where the command is due runs it, and then reads BUSY = 0 unless the command stopped (R61, R180). -/
theorem pollStatus_due {s : State} {w : Word} (hd : Due s w) (hp : s.port = []) :
    (∃ t, pollStatus s = .next t ∧ t.inflight = none ∧ t.sawIdle = true ∧ t.port = []) ∨
      ∃ b k, pollStatus s = .fault (.unwrittenByte b k) := by
  obtain ⟨hr, hi⟩ := hd
  obtain ⟨hreleased, hinflight, hport⟩ := present_status hr hp
  obtain ⟨hstep, -⟩ := stepRunsTheDecodedCommand _ w ⟨hreleased, hinflight.trans hi⟩
  rcases commandsStopOnlyAtUnwrittenBytes (decode w) (s.present (asmR32 .status) 0) with ⟨u, hu⟩ | ⟨b, k, hu, -⟩ <;>
    rw [hu] at hstep
  · left
    obtain ⟨-, -, -, -, -, hline, hheld, -, hmade⟩ := exec_frame hu
    have hheld : u.finish.port = [⟨asmR32 .status, 0⟩] := hheld.trans hport
    have hread : AtPort u.finish (asmR32 .status) 0 [] :=
      ⟨⟨hline.trans hreleased.1, hmade.trans hreleased.2⟩, rfl, hheld⟩
    have hpoll : pollStatus s = step u.finish := pollStatus_of_held hstep (hheld ▸ List.cons_ne_nil _ _)
    refine ⟨_, hpoll.trans (step_read_reg hread), rfl, ?_, rfl⟩
    simp only [State.sawIdle, readReg_status_idle (State.finish_inflight u), Bool.not_false]
  · exact .inr ⟨b, k, pollStatus_of_fault hstep⟩

/-- WAIT ends with the poll that sees BUSY = 0 (R77). -/
theorem waitIdle_of_idle {s t : State} (h : pollStatus s = .next t) (ht : t.sawIdle = true) (fuel : Nat) :
    waitIdle (fuel + 1) s = .next t := by
  simp only [waitIdle, h, ht, if_true]

/-- WAIT polls again after a poll that sees BUSY = 1 (R77). -/
theorem waitIdle_of_busy {s t : State} (h : pollStatus s = .next t) (ht : t.sawIdle = false) (fuel : Nat) :
    waitIdle (fuel + 1) s = waitIdle fuel t := by
  simp only [waitIdle, h, ht, Bool.false_eq_true, if_false]

/-- WAIT stops where a poll does. -/
theorem waitIdle_of_fault {s : State} {f : Fault} (h : pollStatus s = .fault f) (fuel : Nat) :
    waitIdle (fuel + 1) s = .fault f := by
  simp only [waitIdle, h]

/-- Settles O59: by induction on the turns the command has left, each of which one poll takes. -/
theorem waitEndsWhenTheCommandDoes : Obligations.WaitEndsWhenTheCommandDoes := by
  intro s w n hr hi hp
  induction n generalizing s with
  | zero =>
    rcases pollStatus_due ⟨hr, hi⟩ hp with ⟨t, hpoll, hidle, hsaw, hport⟩ | ⟨b, k, hpoll⟩
    · exact .inl ⟨t, waitIdle_of_idle hpoll hsaw 0, hidle, hsaw, hport⟩
    · exact .inr ⟨b, k, waitIdle_of_fault hpoll 0⟩
  | succ n ih =>
    obtain ⟨t, hpoll, hr', hi', hp', hsaw⟩ := pollStatus_busy hr hi hp
    rw [waitIdle_of_busy hpoll hsaw]
    exact ih t hr' hi' hp'

/-! ## LDDATA and LDIN -/

/-- The block is idle and the accesses `q` wait at its port: with one at the head, it is `AtPort`. -/
def Waiting (s : State) (q : List Request) : Prop := Released s ∧ s.inflight = none ∧ s.port = q

/-- The assembler's byte write at the port writes its byte and leaves the rest of the queue waiting (R58, R76). -/
theorem step_asmW8 {s : State} (hc : s.caps.Legal) {b : Buf} {i : Nat} (hi : i < bufSize s.caps b) {v : Byte} {d : Nat}
    {rest : List Request} (ha : AtPort s (asmW8 b i v) d rest) :
    ∃ t, step s = .next t ∧ Waiting t rest ∧ t.caps = s.caps ∧ t.buf b = Memory.write (s.buf b) i v := by
  have hbyte : (v.setWidth 32).setWidth 8 = v := by simp
  have hstep : step s = .next ((State.pokeByte { s with port := rest } b i v).answer .written) := by
    rw [step_atPort ha]
    simp only [asmW8, performAccess, locate_byte hc hi, hbyte]
  obtain ⟨hr, hidle, -⟩ := ha
  refine ⟨_, hstep, ?_⟩
  cases b <;> exact ⟨⟨hr, hidle, rfl⟩, rfl, rfl⟩

/-- Writes of a byte sequence to a buffer from index `i` on take one step each, and the buffer is then as after a range
write (R64, R77). -/
theorem runSteps_writeBytes {s : State} {b : Buf} {i : Nat} {bs : List Byte} {rest : List Request} (hc : s.caps.Legal)
    (hfits : i + bs.length ≤ bufSize s.caps b)
    (hw : Waiting s ((bs.zipIdx i).map (fun x => ⟨asmW8 b x.2 x.1, 0⟩) ++ rest)) :
    ∃ t, runSteps bs.length s = .next t ∧ Waiting t rest ∧ t.buf b = Memory.writeRange (s.buf b) i bs := by
  induction bs generalizing s i with
  | nil => exact ⟨s, rfl, hw, rfl⟩
  | cons v bs ih =>
    rw [List.length_cons] at hfits
    obtain ⟨t, hstep, hwt, hcaps, hbuf⟩ := step_asmW8 hc (by omega) hw
    rw [List.length_cons, runSteps_next hstep, Memory.writeRange, ← hbuf]
    exact ih (hcaps ▸ hc) (by rw [hcaps]; omega) hwt

/-- Settles O60: the bytes by `runSteps_writeBytes`, then one register write for LDDATA and two for LDIN. The counts fit
a register, a buffer being no larger than its window (R5). -/
theorem loadPseudoInstructionsLoadTheirBytes : Obligations.LoadPseudoInstructionsLoadTheirBytes := by
  intro s bs hc hr hi
  have hcount : ∀ b, bs.length ≤ bufSize s.caps b → (BitVec.ofNat 32 bs.length).toNat = bs.length := by
    intro b hfits
    have hsize : bufSize s.caps b ≤ windowSize := bufSize_le hc b
    rw [BitVec.toNat_ofNat, Nat.mod_eq_of_lt]
    simp only [windowSize] at hsize
    omega
  refine ⟨fun hfits hp => ?_, fun hfits hp => ?_⟩
  · rw [ldData, List.map_append, List.map_map] at hp
    obtain ⟨t, hrun, hwt, hbuf⟩ := runSteps_writeBytes (b := .dbuf) hc (by simpa [bufSize] using hfits) ⟨hr, hi, hp⟩
    refine ⟨_, (runSteps_add hrun 1).trans (runSteps_next (step_write_reg hwt) 0), rfl, ?_, hcount .dbuf hfits, rfl⟩
    rw [State.buf_dbuf] at hbuf
    exact hbuf ▸ holds_writeRange _ 0 bs
  · rw [ldIn, List.map_append, List.map_map] at hp
    obtain ⟨t, hrun, hwt, hbuf⟩ := runSteps_writeBytes (b := .ibuf) hc (by simpa [bufSize] using hfits) ⟨hr, hi, hp⟩
    have hlen := step_write_reg hwt
    obtain ⟨hrt, hit, -⟩ := hwt
    have hposAtPort : AtPort { t.writeReg .inLen (BitVec.ofNat 32 bs.length) 0 with
        port := [⟨asmW32 .inPos 0, 0⟩], reply := some .written } (asmW32 .inPos 0) 0 [] := ⟨hrt, hit, rfl⟩
    have hpos := step_write_reg hposAtPort
    refine ⟨_, (runSteps_add hrun 2).trans ((runSteps_next hlen 1).trans (runSteps_next hpos 0)), rfl, ?_,
      hcount .ibuf hfits, rfl⟩
    rw [State.buf_ibuf] at hbuf
    exact hbuf ▸ holds_writeRange _ 0 bs

end Sys2Proof.Machine

/-! The CRC function and its generator (40_crc.md): the bitwise step, the table step and one-byte detection (O5 to O7),
the four generator commands (O8 to O11) and their sequences (O12), and that the chunk commands leave CRC_STATE alone
(O13). -/

namespace Sys2Proof.Machine

/-! ## The CRC function -/

/-- Settles O5: `crcStep` writes the eight rounds out, so both sides compute alike; the examples are evaluated. -/
theorem crcStepIsEightRounds : Obligations.CrcStepIsEightRounds :=
  ⟨fun _ _ => rfl, by decide, by decide, by decide⟩

/-- Eight rounds shift the upper three bytes down, and what they xor in comes from the low byte alone. -/
theorem crcRounds_eq_shift_xor (x : Word) : crcRounds x = (x >>> 8) ^^^ crcRounds ((x.setWidth 8).setWidth 32) := by
  have hlow : ∀ i < 8, (x ^^^ (x.setWidth 8).setWidth 32).getLsbD i = false := by
    intro i hi
    have hi32 : i < 32 := by omega
    simp [hi, hi32]
  have hshift : (x ^^^ (x.setWidth 8).setWidth 32) >>> 8 = x >>> 8 := by
    apply BitVec.eq_of_getLsbD_eq
    intro i hi
    simp
  calc crcRounds x
    _ = crcRounds ((x ^^^ (x.setWidth 8).setWidth 32) ^^^ (x.setWidth 8).setWidth 32) := by
      rw [BitVec.xor_assoc, BitVec.xor_self, BitVec.xor_zero]
    _ = (x >>> 8) ^^^ crcRounds ((x.setWidth 8).setWidth 32) := by
      rw [crcRounds_xor, crcRounds_of_low_zero hlow, hshift]

/-- A step from state 0 is eight rounds on the byte: the table's entry at it (R102). -/
theorem crcStep_zero (b : Byte) : crcStep 0 b = crcRounds (b.setWidth 32) :=
  congrArg crcRounds BitVec.zero_xor

/-- Settles O6: the byte only changes the state's low byte, so `crcRounds_eq_shift_xor` splits the step. -/
theorem crcTableStepEqualsBitwiseStep : Obligations.CrcTableStepEqualsBitwiseStep := by
  intro c b
  have hshift : (c ^^^ b.setWidth 32) >>> 8 = c >>> 8 := by
    apply BitVec.eq_of_getLsbD_eq
    intro i hi
    simp
  have hlow : (c ^^^ b.setWidth 32).setWidth 8 = c.setWidth 8 ^^^ b := by
    rw [BitVec.setWidth_xor, BitVec.setWidth_setWidth_of_le _ (by decide), BitVec.setWidth_eq]
  rw [crcStep_eq, crcStep_zero, crcRounds_eq_shift_xor, hshift, hlow]

/-- Settles O7: the states differ after the changed byte, and the same bytes after it keep them different. -/
theorem oneChangedByteChangesTheCrc : Obligations.OneChangedByteChangesTheCrc := by
  intro xs ys a b hab h
  have hstate : crcState crcOnes (xs ++ a :: ys) = crcState crcOnes (xs ++ b :: ys) :=
    (BitVec.xor_left_inj _).1 h
  simp only [crcState_append, crcState_cons] at hstate
  exact hab (crcStep_byte_injective (crcState_injective hstate))

/-! ## The generator commands -/

/-- The one word of a well-formed command. -/
theorem decode_eq_iff_encode {i : Instr} (hi : i.wf = true) (w : Word) : decode w = i ↔ w = encode i :=
  decode_eq_iff (decodeOfEncodeIsIdentity i hi) w

/-- CRC_VALUE reads the crc32 of a sequence where CRC_STATE is the state it leads to from all ones (R32, R102). -/
theorem readReg_crcValue_of_crcState {s : State} {bs : List Byte} (h : s.crcState = crcState crcOnes bs) :
    s.readReg .crcValue = crc32 bs := by
  rw [State.readReg, h]
  rfl

/-- Settles O8: after CRC_INIT, CRC_STATE is the state of the empty sequence, whose crc32 is 0. -/
theorem crcInitStartsANewCrc : Obligations.CrcInitStartsANewCrc :=
  ⟨decode_eq_iff_encode (i := .crcInit) rfl,
    fun _ => ⟨_, rfl, rfl, readReg_crcValue_of_crcState (bs := []) rfl⟩⟩

/-- Settles O9: CRC_BYTE's word is its row's with the byte in ARG; the corner cases and the example are evaluated. -/
theorem crcByteFeedsItsOperand : Obligations.CrcByteFeedsItsOperand :=
  ⟨fun b => decode_eq_iff_encode (i := .crcByte b) rfl, fun _ _ => rfl, by decide, by decide, by decide⟩

/-- R105's example, the type "RuSt", byte by byte. -/
theorem crcState_crcOnes_ruSt : crcState 0xFFFF_FFFF [0x52, 0x75, 0x53, 0x74] = 0x2B7B_F6C3 := by
  have hR : crcStep 0xFFFF_FFFF 0x52 = 0xA898_20AA := by decide
  have hu : crcStep 0xA898_20AA 0x75 = 0x16C4_5765 := by decide
  have hS : crcStep 0x16C4_5765 0x53 = 0xCFAC_51CE := by decide
  have ht : crcStep 0xCFAC_51CE 0x74 = 0x2B7B_F6C3 := by decide
  rw [crcState_cons, hR, crcState_cons, hu, crcState_cons, hS, crcState_cons, ht, crcState_nil]

/-- Settles O10: the bytes of TAG in wire order are the four that `be32bytes` lists. -/
theorem crcTagFeedsTheTagBytes : Obligations.CrcTagFeedsTheTagBytes :=
  ⟨decode_eq_iff_encode (i := .crcTag) rfl, fun _ => rfl, crcState_crcOnes_ruSt⟩

/-- A read of bytes stops where the range read does. -/
theorem State.withBytes_of_error {s : State} {b : Buf} {i n j : Nat} (h : Memory.readRange (s.buf b) i n = .error j)
    (k : List Byte → Result) : s.withBytes b i n k = .fault (.unwrittenByte b j) := by
  simp only [State.withBytes, h]

/-- CRC_DATA where LENGTH is out of range (R106). -/
theorem execCrcData_of_gt {s : State} (h : s.length.toNat > s.caps.dbuf) :
    execCrcData s = .next (s.raise .rangeError) := if_pos h

/-- CRC_DATA where LENGTH is in range (R106). -/
theorem execCrcData_of_le {s : State} (h : s.length.toNat ≤ s.caps.dbuf) :
    execCrcData s = s.withData fun data => .next (s.putCrcState (crcState s.crcState data)).complete :=
  if_neg (Nat.not_lt.2 h)

/-- CRC_DATA where nothing is wrong (R106). -/
theorem execCrcData_of_readRange {s : State} {data : List Byte} (h : s.length.toNat ≤ s.caps.dbuf)
    (hdata : Memory.readRange s.dbuf 0 s.length.toNat = .ok data) :
    execCrcData s = .next (s.putCrcState (crcState s.crcState data)).complete := by
  rw [execCrcData_of_le h, State.withData, State.withBytes_of_ok (b := .dbuf) hdata]

/-- Settles O11: LENGTH out of range, all the bytes there, or a first one that holds no value. -/
theorem crcDataFeedsTheChunkData : Obligations.CrcDataFeedsTheChunkData := by
  refine ⟨decode_eq_iff_encode (i := .crcData) rfl, fun s => execCrcData_of_gt,
    fun s data hlen hsize hdata => execCrcData_of_readRange hlen (readRange_of_holds hdata hsize),
    fun s j hlen hj hnone hfirst => ?_⟩
  have hread : Memory.readRange s.dbuf 0 s.length.toNat = .error j :=
    Memory.readRange_error_of_first (Nat.zero_le j) (by omega) hnone fun k _ => hfirst k
  exact (execCrcData_of_le hlen).trans (State.withBytes_of_error (b := .dbuf) hread _)

/-! ## Sequences of generator commands -/

/-- CRC_DATA feeds the data of the current chunk where LENGTH is in range and every byte of it holds a value. -/
theorem fedBytes_crcData_eq_some_iff {s : State} {bs : List Byte} : fedBytes s .crcData = some bs ↔
    s.length.toNat ≤ s.caps.dbuf ∧ Memory.readRange s.dbuf 0 s.length.toNat = .ok bs := by
  simp only [fedBytes]
  split
  next hgt => simp only [reduceCtorEq, Nat.not_le.2 hgt, false_and]
  next hle =>
    cases Memory.readRange s.dbuf 0 s.length.toNat <;> simp [Except.toOption, Nat.not_lt.1 hle]

/-- A command that feeds bytes does nothing else: CRC_STATE takes them in order, and ERRCODE is 0 (R107). -/
theorem exec_of_fedBytes {i : Instr} {s : State} {bs : List Byte} (h : fedBytes s i = some bs) :
    exec i s = .next (s.putCrcState (crcState s.crcState bs)).complete := by
  cases i with
  | crcByte b => cases h; rfl
  | crcTag => cases h; rfl
  | crcData =>
    obtain ⟨hlen, hdata⟩ := fedBytes_crcData_eq_some_iff.1 h
    exact execCrcData_of_readRange hlen hdata
  | _ => cases h

/-- The first command of a feeding sequence feeds its bytes, and the rest feed theirs in the state it leaves. -/
theorem fedAll_cons_eq_some_iff {i : Instr} {is : List Instr} {s : State} {bs : List Byte} :
    fedAll (i :: is) s = some bs ↔ ∃ xs ys, fedBytes s i = some xs ∧
      fedAll is (s.putCrcState (crcState s.crcState xs)).complete = some ys ∧ xs ++ ys = bs := by
  cases hfed : fedBytes s i with
  | none => simp [fedAll, hfed]
  | some xs => simp [fedAll, hfed, exec_of_fedBytes hfed]

/-- A sequence whose first command ends goes on from the state it leaves. -/
theorem execAll_cons {i : Instr} {is : List Instr} {s t : State} (h : exec i s = .next t) :
    execAll (i :: is) s = execAll is t := by
  simp only [execAll, h]

/-- A feeding sequence takes CRC_STATE through all its bytes in order, and raises no error (R107). -/
theorem execAll_of_fedAll {is : List Instr} {s : State} {bs : List Byte} (h : fedAll is s = some bs)
    (he : s.errCode = .success) :
    ∃ t, execAll is s = .next t ∧ t.crcState = crcState s.crcState bs ∧ t.errCode = .success := by
  induction is generalizing s bs with
  | nil => cases h; exact ⟨s, rfl, rfl, he⟩
  | cons i is ih =>
    obtain ⟨xs, ys, hxs, hys, rfl⟩ := fedAll_cons_eq_some_iff.1 h
    obtain ⟨t, ht, hstate, herr⟩ := ih hys rfl
    refine ⟨t, (execAll_cons (exec_of_fedBytes hxs)).trans ht, ?_, herr⟩
    rw [hstate, State.complete_crcState, State.putCrcState_crcState, crcState_append]

/-- A sequence that starts with CRC_INIT leaves in CRC_VALUE the crc32 of the bytes fed after it (R107). -/
theorem execAll_crcInit {is : List Instr} {s : State} {bs : List Byte}
    (h : fedAll is (s.putCrcState crcOnes).complete = some bs) :
    ∃ t, execAll (.crcInit :: is) s = .next t ∧ t.readReg .crcValue = crc32 bs ∧ t.errCode = .success := by
  obtain ⟨t, ht, hstate, herr⟩ := execAll_of_fedAll h rfl
  exact ⟨t, ht, readReg_crcValue_of_crcState hstate, herr⟩

/-- Settles O12: by `execAll_crcInit`; what CRC_TAG and CRC_DATA feed are the bytes CHUNK_NEW's crc covers. -/
theorem generatorCommandsCompose : Obligations.GeneratorCommandsCompose := by
  refine ⟨fun is s s₀ bs hinit hfed => ?_, fun s t h he => ?_⟩
  · cases hinit
    exact execAll_crcInit hfed
  · rcases execChunkNew_cases h with ⟨-, rfl⟩ | ⟨-, -, rfl⟩ | ⟨hlen, -, data, hdata, rfl⟩
    · cases he
    · cases he
    · have hfed : fedAll [.crcTag, .crcData] (s.putCrcState crcOnes).complete = some (be32bytes s.tag ++ data) :=
        fedAll_cons_eq_some_iff.2 ⟨_, data, rfl, fedAll_cons_eq_some_iff.2
          ⟨data, [], fedBytes_crcData_eq_some_iff.2 ⟨hlen, hdata⟩, rfl, List.append_nil data⟩, rfl⟩
      obtain ⟨u, hu, hvalue, -⟩ := execAll_crcInit hfed
      exact ⟨u, hu, hvalue⟩

/-! ## The chunk commands -/

/-- CRC_STATE is no buffer. -/
theorem State.putCrcState_buf (s : State) (c : Word) : (s.putCrcState c).buf = s.buf := by
  funext b
  cases b <;> rfl

/-- A chunk command run after a change of CRC_STATE does what it does before it, and the change stays (R108). -/
theorem exec_putCrcState {i : Instr} (hi : isChunkCommand i = true) (s : State) (c : Word) :
    exec i (s.putCrcState c) = mapNext (·.putCrcState c) (exec i s) := by
  cases i with
  | chunkNew =>
    simp only [exec, execChunkNew, State.withData, mapNext_ite, mapNext_withBytes _ (s.putCrcState_buf c)]
    rfl
  | chunkParse =>
    simp only [exec, execChunkParse, parseChecksum, mapNext_ite, mapNext_withBytes _ (s.putCrcState_buf c),
      mapNext_withWord _ (s.putCrcState_buf c)]
    rfl
  | chunkSerialize =>
    simp only [exec, execChunkSerialize, State.withData, mapNext_ite, mapNext_withBytes _ (s.putCrcState_buf c)]
    rfl
  | _ => cases hi

/-- Every chunk command is no generator command. -/
theorem isGeneratorCommand_of_isChunkCommand {i : Instr} (hi : isChunkCommand i = true) :
    isGeneratorCommand i = false := by
  cases i with
  | chunkNew => rfl
  | chunkParse => rfl
  | chunkSerialize => rfl
  | _ => cases hi

/-- Settles O13: only the generator commands write CRC_STATE, and no path of a chunk command reads it. -/
theorem chunkCommandsIgnoreCrcState : Obligations.ChunkCommandsIgnoreCrcState :=
  ⟨fun _ _ _ hi h => exec_crcState (isGeneratorCommand_of_isChunkCommand hi) h,
    fun _ s c hi => exec_putCrcState hi s c⟩

end Sys2Proof.Machine

/-! The tag checker (41_tag.md): the alphabetic bytes (O14), the two tests of TAG (O16, O17), and the comparison of TAG
with TAG_B, by its value (O18) and as the order of the raw bytes (O19). -/

namespace Sys2Proof.Machine

/-! ## The alphabetic bytes -/

/-- Settles O14: the test is `isAlpha_iff`; the letters among the 256 bytes are counted. -/
theorem alphabeticBytesAreTheLetters : Obligations.AlphabeticBytesAreTheLetters :=
  ⟨isAlpha_iff, by decide⟩

/-! ## The tests of TAG -/

/-- Settles O16: TAG_CHECK branches on the letter test of TAG alone. -/
theorem tagCheckTestsTheFourBytes : Obligations.TagCheckTestsTheFourBytes := by
  refine ⟨decode_eq_iff_encode (i := .tagCheck) rfl, fun s => ⟨fun h => ?_, fun h => ?_⟩⟩
  · exact if_pos ((tagAlpha_iff s.tag).2 h)
  · exact if_neg (mt (tagAlpha_iff s.tag).1 h)

/-- TAG_CHECK_STR with a length of 4 branches on the letter test of TAG (R128). -/
theorem execTagCheckStr_of_four {n : Byte} (hn : n.toNat = 4) (s : State) : execTagCheckStr n s =
    if tagAlpha s.tag then .next s.complete else .next (s.raise .invalidCharacter) :=
  if_neg (not_not_intro hn)

/-- Settles O17: the length decides first, then the letter test of TAG. -/
theorem tagCheckStrTestsLengthThenBytes : Obligations.TagCheckStrTestsLengthThenBytes := by
  refine ⟨fun n => decode_eq_iff_encode (i := .tagCheckStr n) rfl,
    fun n s => ⟨fun hn => ?_, fun hn h => ?_, fun hn h => ?_⟩⟩
  · exact if_pos hn
  · exact (execTagCheckStr_of_four hn s).trans (if_neg (mt (tagAlpha_iff s.tag).1 h))
  · exact (execTagCheckStr_of_four hn s).trans (if_pos ((tagAlpha_iff s.tag).2 h))

/-! ## The comparison of TAG with TAG_B -/

theorem compareTags_eq_equal_iff {a b : Word} : compareTags a b = .equal ↔ a = b := by
  rw [compareTags]
  split_ifs <;> simp [*]

theorem compareTags_eq_below_iff {a b : Word} : compareTags a b = .below ↔ a.toNat < b.toNat := by
  rw [compareTags]
  split_ifs <;> simp [*]

theorem compareTags_eq_above_iff {a b : Word} : compareTags a b = .above ↔ b.toNat < a.toNat := by
  rw [compareTags]
  split_ifs with heq hlt
  · simp [heq]
  · simp [hlt.le]
  · have hne : a.toNat ≠ b.toNat := mt BitVec.eq_of_toNat_eq heq
    exact iff_of_true rfl (by omega)

/-- TAG_CMP writes CMP where the tags compare so (R127). -/
theorem exec_tagCmp_of_compareTags {s : State} {c : Cmp} (h : compareTags s.tag s.tagB = c) :
    exec .tagCmp s = .next { s with cmp := c, errCode := .success } := h ▸ rfl

/-- Settles O18: each outcome of `compareTags` is one comparison of the words. -/
theorem tagCmpComparesUnsigned : Obligations.TagCmpComparesUnsigned :=
  ⟨decode_eq_iff_encode (i := .tagCmp) rfl, fun _ =>
    ⟨fun h => exec_tagCmp_of_compareTags (compareTags_eq_equal_iff.2 h),
      fun h => exec_tagCmp_of_compareTags (compareTags_eq_below_iff.2 h),
      fun h => exec_tagCmp_of_compareTags (compareTags_eq_above_iff.2 h), rfl, rfl, rfl⟩⟩

/-- A word's value is that of its four bytes, byte 0 the most significant (R9). -/
theorem toNat_eq_tagBytes (v : Word) : v.toNat =
    (tagByte0 v).toNat * 2 ^ 24 + (tagByte1 v).toNat * 2 ^ 16 + (tagByte2 v).toNat * 2 ^ 8 + (tagByte3 v).toNat := by
  have hv := v.isLt
  simp only [tagByte0, tagByte1, tagByte2, tagByte3, BitVec.extractLsb'_toNat, Nat.shiftRight_eq_div_pow]
  omega

/-- The lexicographic order of the bytes is the unsigned order of the words: each byte weighs more than all after it. -/
theorem be32bytes_lt_iff (v w : Word) :
    (be32bytes v).map BitVec.toNat < (be32bytes w).map BitVec.toNat ↔ v.toNat < w.toNat := by
  have hv1 := (tagByte1 v).isLt
  have hv2 := (tagByte2 v).isLt
  have hv3 := (tagByte3 v).isLt
  have hw1 := (tagByte1 w).isLt
  have hw2 := (tagByte2 w).isLt
  have hw3 := (tagByte3 w).isLt
  simp only [be32bytes, List.map_cons, List.map_nil, List.cons_lt_cons_iff, toNat_eq_tagBytes v, toNat_eq_tagBytes w,
    List.not_lt_nil, and_false, or_false]
  omega

/-- Settles O19: CMP is the unsigned comparison of the words, which is the lexicographic one of their bytes. -/
theorem tagCmpIsLexicographic : Obligations.TagCmpIsLexicographic := by
  intro s t h
  cases h
  exact ⟨compareTags_eq_below_iff.trans (be32bytes_lt_iff s.tag s.tagB).symm,
    compareTags_eq_above_iff.trans (be32bytes_lt_iff s.tagB s.tag).symm,
    compareTags_eq_equal_iff.trans ⟨congrArg be32bytes, be32bytes_injective⟩⟩

end Sys2Proof.Machine

/-! The chunk commands (42_chunk.md): CHUNK_NEW (O20), CHUNK_PARSE's tests, commit, frame and reads (O21, O23, O34,
O27), CHUNK_SERIALIZE's tests, commit and frame (O24, O25, O35), the round trips (O28, O29), and sequences and
corruption of chunks (O30, O31, O32). -/

namespace Sys2Proof.Machine

/-! ## CHUNK_NEW -/

/-- A read of the chunk data stops where one of its bytes holds no value (R39). -/
theorem State.withData_fault {s : State} {n : Nat} (k : List Byte → Result) (hn : n < s.length.toNat)
    (h : Memory.read s.dbuf n = none) : ∃ j, s.withData k = .fault (.unwrittenByte .dbuf j) :=
  State.withBytes_fault (b := .dbuf) (i := 0) k hn (by rwa [Nat.zero_add])

/-- CHUNK_NEW where LENGTH is in range and the type is not alphabetic (R145). -/
theorem execChunkNew_of_not_alpha {s : State} (hlen : s.length.toNat ≤ s.caps.dbuf) (ha : tagAlpha s.tag = false) :
    execChunkNew s = .next (s.raise .invalidChunkType) := by
  rw [execChunkNew, if_neg (Nat.not_lt.2 hlen), ha]
  rfl

/-- CHUNK_NEW where both tests pass (R145). -/
theorem execChunkNew_of_alpha {s : State} (hlen : s.length.toNat ≤ s.caps.dbuf) (ha : tagAlpha s.tag = true) :
    execChunkNew s = s.withData fun data => .next (s.commitNew data).complete := by
  rw [execChunkNew, if_neg (Nat.not_lt.2 hlen), ha]
  rfl

/-- Settles O20: the two tests in their order, then the read of the data, which either gets it or stops. -/
theorem chunkNewComputesTheCrc : Obligations.ChunkNewComputesTheCrc := by
  refine ⟨decode_eq_iff_encode (i := .chunkNew) rfl, fun s h => if_pos h, fun s hlen ht => ?_,
    fun s data hlen ht hsize hdata => ?_, fun s k hlen ht hk hnone => ?_⟩
  · exact execChunkNew_of_not_alpha hlen ((tagAlpha_eq_false_iff _).2 ht)
  · exact (execChunkNew_of_alpha hlen ((tagAlpha_iff _).2 ht)).trans
      (State.withBytes_of_ok (b := .dbuf) (readRange_of_holds hdata hsize) _)
  · obtain ⟨j, hj⟩ := State.withData_fault (fun data => .next (s.commitNew data).complete) hk hnone
    exact ⟨j, (execChunkNew_of_alpha hlen ((tagAlpha_iff _).2 ht)).trans hj⟩

/-! ## The tests of CHUNK_PARSE -/

/-- Steps 4 and 5 of CHUNK_PARSE, for a chunk whose declared length `len` fits (R151). -/
def parseType (s : State) (len : Word) : Result :=
  s.withWord .ibuf (s.inPos.toNat + 4) fun tag =>
    if !tagAlpha tag then .next (s.raise .invalidChunkType) else parseChecksum s.inPos.toNat len tag s

/-- Steps 3 to 5 of CHUNK_PARSE, for a declared length `len` (R151). -/
def parseLength (s : State) (len : Word) : Result :=
  if len.toNat > s.inLen.toNat - s.inPos.toNat - 12 then .next (s.raise .unexpectedEof) else parseType s len

/-- CHUNK_PARSE where the registers are in range and there is no room for the fixed fields (R151 step 2). -/
theorem execChunkParse_of_no_room {s : State} (hcap : s.inLen.toNat ≤ s.caps.ibuf)
    (hpos : s.inPos.toNat ≤ s.inLen.toNat) (hroom : s.inLen.toNat < s.inPos.toNat + 12) :
    execChunkParse s = .next (s.raise .unexpectedEof) := by
  simp only [execChunkParse]
  rw [if_neg (by omega), if_pos (by omega)]

/-- CHUNK_PARSE past steps 1 and 2 reads the length field (R151). -/
theorem execChunkParse_of_room {s : State} (hcap : s.inLen.toNat ≤ s.caps.ibuf)
    (hroom : s.inPos.toNat + 12 ≤ s.inLen.toNat) :
    execChunkParse s = s.withWord .ibuf s.inPos.toNat (parseLength s) := by
  simp only [execChunkParse]
  rw [if_neg (by omega), if_neg (by omega)]
  rfl

section

variable {s : State} {len : Word}

/-- CHUNK_PARSE where the length field holds a word (R151). -/
theorem execChunkParse_of_length (hcap : s.inLen.toNat ≤ s.caps.ibuf) (hroom : s.inPos.toNat + 12 ≤ s.inLen.toNat)
    (hlen : Holds s.ibuf s.inPos.toNat (be32bytes len)) : execChunkParse s = parseLength s len := by
  rw [execChunkParse_of_room hcap hroom, State.withWord_of_ok (b := .ibuf) (readRange_of_holds hlen rfl)]

/-- CHUNK_PARSE where the declared length runs past IN_LEN (R151 step 3). -/
theorem execChunkParse_of_length_gt (hcap : s.inLen.toNat ≤ s.caps.ibuf) (hroom : s.inPos.toNat + 12 ≤ s.inLen.toNat)
    (hlen : Holds s.ibuf s.inPos.toNat (be32bytes len)) (hgt : s.inLen.toNat < s.inPos.toNat + 12 + len.toNat) :
    execChunkParse s = .next (s.raise .unexpectedEof) := by
  rw [execChunkParse_of_length hcap hroom hlen, parseLength, if_pos (by omega)]

/-- CHUNK_PARSE past step 3 reads the type field (R151). -/
theorem execChunkParse_of_length_le (hcap : s.inLen.toNat ≤ s.caps.ibuf)
    (hfits : s.inPos.toNat + 12 + len.toNat ≤ s.inLen.toNat) (hlen : Holds s.ibuf s.inPos.toNat (be32bytes len)) :
    execChunkParse s = parseType s len := by
  rw [execChunkParse_of_length hcap (by omega) hlen, parseLength, if_neg (by omega)]

/-- CHUNK_PARSE past step 4 reads the crc field and the data (R151). -/
theorem execChunkParse_of_alpha {tag : Word} (hcap : s.inLen.toNat ≤ s.caps.ibuf)
    (hfits : s.inPos.toNat + 12 + len.toNat ≤ s.inLen.toNat)
    (hheld : Holds s.ibuf s.inPos.toNat (be32bytes len ++ be32bytes tag)) (ha : tagAlpha tag = true) :
    execChunkParse s = parseChecksum s.inPos.toNat len tag s := by
  obtain ⟨hlen, htag⟩ := holds_append.1 hheld
  rw [be32bytes_length] at htag
  rw [execChunkParse_of_length_le hcap hfits hlen, parseType,
    State.withWord_of_ok (b := .ibuf) (readRange_of_holds htag rfl), ha]
  rfl

end

/-- Step 5 of CHUNK_PARSE stops where a byte of the data or of the crc field holds no value (R39). -/
theorem parseChecksum_fault {s : State} {p k : Nat} {len : Word} (tag : Word) (hlo : 8 ≤ k) (hhi : k < 12 + len.toNat)
    (h : Memory.read s.ibuf (p + k) = none) : ∃ j, parseChecksum p len tag s = .fault (.unwrittenByte .ibuf j) := by
  rw [parseChecksum]
  rcases Nat.lt_or_ge k (8 + len.toNat) with hdata | hcrc
  · rcases s.withWord_cases .ibuf (p + 8 + len.toNat) _ with ⟨rx, -, e⟩ | ⟨j, -, -, -, e⟩
    · rw [e]
      exact State.withBytes_fault (b := .ibuf) (n := k - 8) _ (by omega)
        (by rwa [show p + 8 + (k - 8) = p + k by omega])
    · exact ⟨j, e⟩
  · exact State.withWord_fault (b := .ibuf) (n := k - 8 - len.toNat) _ (by omega)
      (by rwa [show p + 8 + len.toNat + (k - 8 - len.toNat) = p + k by omega])

/-- The length and the type of a framed chunk, in the order CHUNK_PARSE tests them. -/
theorem FramedAt.holds_length_type {s : State} {len tag rx : Word} {data : List Byte} (h : FramedAt s len tag data rx) :
    Holds s.ibuf s.inPos.toNat (be32bytes len ++ be32bytes tag) :=
  (holds_append.1 (holds_append.1 h.holds).1).1

/-- CHUNK_PARSE of a framed chunk with letters for a type and another crc than its own (R151 step 5). -/
theorem execChunkParse_of_mismatch {s : State} {len tag rx : Word} {data : List Byte} (h : FramedAt s len tag data rx)
    (ht : LetterTag tag) (hrx : rx ≠ chunkCrc tag data) :
    execChunkParse s = .next ((s.putDiagnostics rx (chunkCrc tag data)).raise .invalidChecksum) :=
  (execChunkParse_of_framed h ((tagAlpha_iff tag).2 ht)).trans (if_pos hrx)

/-- CHUNK_PARSE of a framed chunk with letters for a type and its own crc (R152). -/
theorem execChunkParse_of_match {s : State} {len tag : Word} {data : List Byte}
    (h : FramedAt s len tag data (chunkCrc tag data)) (ht : LetterTag tag) :
    execChunkParse s = .next ((s.putDiagnostics (chunkCrc tag data) (chunkCrc tag data)).commitParse s.inPos.toNat len
      tag data (chunkCrc tag data)).complete :=
  (execChunkParse_of_framed h ((tagAlpha_iff tag).2 ht)).trans (if_neg (not_not_intro rfl))

/-- Settles O21: step by step, each clause by the law of the steps before the one that rejects or stops. -/
theorem chunkParseRejectsInOrder : Obligations.ChunkParseRejectsInOrder := by
  refine ⟨decode_eq_iff_encode (i := .chunkParse) rfl, fun s h => if_pos h,
    fun s hcap hpos hroom => execChunkParse_of_no_room hcap hpos hroom,
    fun s len hcap hroom hlen hgt => execChunkParse_of_length_gt hcap hroom hlen hgt,
    fun s len tag rx data hf ht =>
      chunkTypeIsTestedBeforeDataIsRead s len tag hf.inLen_le hf.fits hf.holds_length_type ht,
    fun s len tag rx data hf ht hrx => execChunkParse_of_mismatch hf ht hrx,
    fun s k hcap hroom hk hnone => ?_, fun s len k hcap hfits hlen hlo hhi hnone => ?_,
    fun s len tag k hcap hfits hheld ht hlo hhi hnone => ?_⟩
  · obtain ⟨j, hj⟩ := State.withWord_fault (b := .ibuf) (parseLength s) hk hnone
    exact ⟨j, (execChunkParse_of_room hcap hroom).trans hj⟩
  · have hnone' : Memory.read s.ibuf (s.inPos.toNat + 4 + (k - 4)) = none := by
      rwa [show s.inPos.toNat + 4 + (k - 4) = s.inPos.toNat + k by omega]
    obtain ⟨j, hj⟩ := State.withWord_fault (s := s) (b := .ibuf) _ (by omega) hnone'
    exact ⟨j, (execChunkParse_of_length_le hcap hfits hlen).trans hj⟩
  · obtain ⟨j, hj⟩ := parseChecksum_fault tag hlo hhi hnone
    exact ⟨j, (execChunkParse_of_alpha hcap hfits hheld ((tagAlpha_iff tag).2 ht)).trans hj⟩

/-! ## The commit and the frame of CHUNK_PARSE -/

/-- The end of a framed chunk is a 32-bit position: IN_LEN is no smaller (R8). -/
theorem FramedAt.toNat_end {s : State} {len tag rx : Word} {data : List Byte} (h : FramedAt s len tag data rx) :
    (BitVec.ofNat 32 (s.inPos.toNat + 12 + len.toNat)).toNat = s.inPos.toNat + 12 + len.toNat :=
  (BitVec.toNat_ofNat _ _).trans (Nat.mod_eq_of_lt (Nat.lt_of_le_of_lt h.fits s.inLen.isLt))

/-- Settles O23: by `execChunkParse_of_match`; DBUF is written from index 0 on. -/
theorem chunkParseCommits : Obligations.ChunkParseCommits := by
  rintro s len tag rx data hf ht rfl
  refine ⟨Memory.writeRange s.dbuf 0 data, execChunkParse_of_match hf ht, hf.toNat_end, holds_writeRange _ _ _,
    fun k hk => Memory.read_writeRange_outside _ (.inr ?_)⟩
  rwa [hf.data_length, Nat.zero_add]

/-- The length word of a framed chunk is the word held at IN_POS. -/
theorem FramedAt.length_eq {s : State} {len len' tag rx : Word} {data : List Byte} (h : FramedAt s len tag data rx)
    (hheld : Holds s.ibuf s.inPos.toNat (be32bytes len')) : len = len' :=
  holds_word_unique (holds_append.1 h.holds_length_type).1 hheld

/-- CHUNK_PARSE leaves DBUF alone, or succeeds and writes the data it framed from index 0 on (R152). -/
theorem execChunkParse_dbuf {s t : State} (h : execChunkParse s = .next t) :
    t.dbuf = s.dbuf ∨ ∃ len tag data rx, FramedAt s len tag data rx ∧ t.errCode = .success ∧
      t.dbuf = Memory.writeRange s.dbuf 0 data := by
  rcases execChunkParse_cases h with ⟨-, rfl⟩ | ⟨-, -, rfl⟩ | ⟨_, -, -, rfl⟩ | ⟨_, -, -, rfl⟩ |
    ⟨len, tag, data, rx, hf, -, ⟨-, rfl⟩ | ⟨-, rfl⟩⟩
  iterate 5 exact .inl rfl
  exact .inr ⟨len, tag, data, rx, hf, rfl, rfl⟩

/-- Settles O34: by `execChunkParse_dbuf` and what each kind of end leaves alone. -/
theorem chunkParseFrame : Obligations.ChunkParseFrame := by
  intro s t h
  obtain ⟨htagB, hinLen, hcaps, hibuf, hhost⟩ := exec_frame h
  obtain ⟨houtLen, hcmp⟩ : t.outLen = s.outLen ∧ t.cmp = s.cmp := by
    cases exec_effect h <;> exact ⟨rfl, rfl⟩
  refine ⟨fun len k hlen hk => ?_, fun he k => ?_, fun k => by rw [hibuf],
    fun k => by rw [exec_obuf (by decide) h], htagB, hinLen, houtLen, exec_crcState rfl h, hcmp, hcaps, hhost⟩
  · rcases execChunkParse_dbuf h with e | ⟨len', tag, data, rx, hf, -, e⟩
    · rw [e]
    · rw [e, Memory.read_writeRange_outside]
      rw [hf.data_length, hf.length_eq hlen]
      omega
  · rcases execChunkParse_dbuf h with e | ⟨-, -, -, -, -, he', -⟩
    · rw [e]
    · exact absurd he' he

/-! ## What CHUNK_PARSE reads -/

/-- A change that leaves the bytes of a range alone passes through a read of it. -/
theorem mapNext_withBytes_of_read_eq (f : State → State) {s s' : State} {b : Buf} {i n : Nat}
    (h : ∀ j, i ≤ j → j < i + n → Memory.read (s.buf b) j = Memory.read (s'.buf b) j) (k : List Byte → Result) :
    mapNext f (s.withBytes b i n k) = s'.withBytes b i n fun bs => mapNext f (k bs) := by
  simp only [State.withBytes, Memory.readRange_congr h]
  cases Memory.readRange (s'.buf b) i n <;> rfl

/-- A change that leaves the bytes of a word alone passes through a read of it. -/
theorem mapNext_withWord_of_read_eq (f : State → State) {s s' : State} {b : Buf} {i : Nat}
    (h : ∀ j, i ≤ j → j < i + 4 → Memory.read (s.buf b) j = Memory.read (s'.buf b) j) (k : Word → Result) :
    mapNext f (s.withWord b i k) = s'.withWord b i fun v => mapNext f (k v) := by
  simp only [State.withWord, h i (by omega) (by omega), h (i + 1) (by omega) (by omega),
    h (i + 2) (by omega) (by omega), h (i + 3) (by omega) (by omega)]
  repeat' split
  all_goals rfl

/-- The state with another IBUF. -/
def State.withIbuf (m : Memory) (s : State) : State := { s with ibuf := m }

/-- Steps 4 and 5 of CHUNK_PARSE read nothing but the type, the data and the crc field (R150). -/
theorem parseType_withIbuf {s : State} {len : Word} {m : Memory}
    (h : ∀ k, k < 12 + len.toNat → Memory.read m (s.inPos.toNat + k) = Memory.read s.ibuf (s.inPos.toNat + k)) :
    parseType (s.withIbuf m) len = mapNext (State.withIbuf m) (parseType s len) := by
  have hsub : ∀ i n, s.inPos.toNat ≤ i → i + n ≤ s.inPos.toNat + 12 + len.toNat → ∀ j, i ≤ j → j < i + n →
      Memory.read (s.buf .ibuf) j = Memory.read ((s.withIbuf m).buf .ibuf) j := by
    intro i n hi hn j hj hjn
    obtain ⟨k, rfl⟩ := Nat.exists_eq_add_of_le (hi.trans hj)
    exact (h k (by omega)).symm
  simp only [parseType, parseChecksum, mapNext_ite,
    mapNext_withWord_of_read_eq _ (hsub (s.inPos.toNat + 4) 4 (by omega) (by omega)),
    mapNext_withWord_of_read_eq _ (hsub (s.inPos.toNat + 8 + len.toNat) 4 (by omega) (by omega)),
    mapNext_withBytes_of_read_eq _ (hsub (s.inPos.toNat + 8) len.toNat (by omega) (by omega))]
  rfl

/-- Settles O27: steps 1 and 2 read no byte; then both runs read the same length word, and the later steps read inside
the chunk it frames. -/
theorem parserReadsOnlyTheFramedChunk : Obligations.ParserReadsOnlyTheFramedChunk := by
  intro s len m hlen hm
  change execChunkParse (s.withIbuf m) = mapNext (State.withIbuf m) (execChunkParse s)
  have hlen' : Holds (s.withIbuf m).ibuf (s.withIbuf m).inPos.toNat (be32bytes len) :=
    holds_congr (fun k hk => (hm k (by rw [be32bytes_length] at hk; omega)).symm) hlen
  by_cases hrange : s.inLen.toNat > s.caps.ibuf ∨ s.inPos.toNat > s.inLen.toNat
  · rw [execChunkParse, execChunkParse, if_pos hrange]
    exact if_pos hrange
  obtain ⟨hcap, hpos⟩ : s.inLen.toNat ≤ s.caps.ibuf ∧ s.inPos.toNat ≤ s.inLen.toNat := by omega
  rcases Nat.lt_or_ge s.inLen.toNat (s.inPos.toNat + 12) with hroom | hroom
  · rw [execChunkParse_of_no_room hcap hpos hroom]
    exact execChunkParse_of_no_room (s := s.withIbuf m) hcap hpos hroom
  · rw [execChunkParse_of_length hcap hroom hlen, execChunkParse_of_length (s := s.withIbuf m) hcap hroom hlen',
      parseLength, parseLength, mapNext_ite, parseType_withIbuf hm]
    rfl

/-! ## CHUNK_SERIALIZE -/

/-- CHUNK_SERIALIZE where the registers are in range and the type is not alphabetic (R161). -/
theorem execChunkSerialize_of_not_alpha {s : State} (hlen : s.length.toNat ≤ s.caps.dbuf)
    (hout : s.outLen.toNat ≤ s.caps.obuf) (ha : tagAlpha s.tag = false) :
    execChunkSerialize s = .next (s.raise .invalidChunkType) := by
  rw [execChunkSerialize, if_neg (by omega), ha]
  rfl

/-- CHUNK_SERIALIZE where there is no room in OBUF (R161). -/
theorem execChunkSerialize_of_no_room {s : State} (hlen : s.length.toNat ≤ s.caps.dbuf)
    (hout : s.outLen.toNat ≤ s.caps.obuf) (ha : tagAlpha s.tag = true)
    (hroom : s.outLen.toNat + 12 + s.length.toNat > s.caps.obuf) :
    execChunkSerialize s = .next (s.raise .bufferOverflow) := by
  rw [execChunkSerialize, if_neg (by omega), ha]
  exact if_pos hroom

/-- CHUNK_SERIALIZE where all three tests pass (R161, R162). -/
theorem execChunkSerialize_of_room {s : State} (hlen : s.length.toNat ≤ s.caps.dbuf) (ha : tagAlpha s.tag = true)
    (hroom : s.outLen.toNat + 12 + s.length.toNat ≤ s.caps.obuf) :
    execChunkSerialize s = s.withData fun data => .next (s.commitSerialize data).complete := by
  rw [execChunkSerialize, if_neg (by omega), ha]
  exact if_neg (Nat.not_lt.2 hroom)

/-- Settles O24: the three tests in their order, then the read of the data, which stops at a byte without a value. -/
theorem chunkSerializeRejectsInOrder : Obligations.ChunkSerializeRejectsInOrder := by
  refine ⟨decode_eq_iff_encode (i := .chunkSerialize) rfl, fun s h => if_pos h,
    fun s hlen hout ht => execChunkSerialize_of_not_alpha hlen hout ((tagAlpha_eq_false_iff _).2 ht),
    fun s hlen hout ht hroom => execChunkSerialize_of_no_room hlen hout ((tagAlpha_iff _).2 ht) hroom,
    fun s k hlen ht hroom hk hnone => ?_⟩
  obtain ⟨j, hj⟩ := State.withData_fault (fun data => .next (s.commitSerialize data).complete) hk hnone
  exact ⟨j, (execChunkSerialize_of_room hlen ((tagAlpha_iff _).2 ht) hroom).trans hj⟩

/-- The emitted chunk stands in OBUF at the old OUT_LEN (R160, R162). -/
theorem State.holds_commitSerialize (s : State) (data : List Byte) :
    Holds (s.commitSerialize data).obuf s.outLen.toNat (serialize s.tag s.length data) :=
  holds_writeRange _ _ _

/-- Outside the emitted chunk, OBUF is as before (R162). -/
theorem State.read_commitSerialize_outside {s : State} {data : List Byte} (hsize : data.length = s.length.toNat)
    {k : Nat} (hk : k < s.outLen.toNat ∨ s.outLen.toNat + 12 + s.length.toNat ≤ k) :
    Memory.read (s.commitSerialize data).obuf k = Memory.read s.obuf k :=
  Memory.read_writeRange_outside _ (by rw [serialize_length]; omega)

/-- OUT_LEN does not wrap where the capacities are legal (R5, R8). -/
theorem State.toNat_commitSerialize_outLen {s : State} (hcaps : s.caps.Legal)
    (hroom : s.outLen.toNat + 12 + s.length.toNat ≤ s.caps.obuf) (data : List Byte) :
    (s.commitSerialize data).outLen.toNat = s.outLen.toNat + 12 + s.length.toNat := by
  obtain ⟨-, -, -, hobuf⟩ := hcaps
  rw [State.commitSerialize_outLen, BitVec.toNat_ofNat]
  exact Nat.mod_eq_of_lt (by omega)

/-- Settles O25: by `execChunkSerialize_of_ok` and what the commit leaves in OBUF and OUT_LEN. -/
theorem chunkSerializeCommits : Obligations.ChunkSerializeCommits := by
  intro s data hcaps hlen ht hroom hsize hdata
  exact ⟨(s.commitSerialize data).obuf, (s.commitSerialize data).outLen,
    execChunkSerialize_of_ok hlen ((tagAlpha_iff _).2 ht) hroom hsize hdata,
    State.toNat_commitSerialize_outLen hcaps hroom data, s.holds_commitSerialize data,
    fun _ => State.read_commitSerialize_outside hsize⟩

/-- Settles O35: a failing end writes nothing but STATUS, and the commit writes OBUF inside the emitted chunk. -/
theorem chunkSerializeFrame : Obligations.ChunkSerializeFrame := by
  intro s t h
  rcases execChunkSerialize_cases h with ⟨-, rfl⟩ | ⟨-, rfl⟩ | ⟨-, rfl⟩ | ⟨-, -, -, data, hdata, rfl⟩
  · simp
  · simp
  · simp
  · have hsize := Memory.length_of_readRange hdata
    exact ⟨fun k hk => State.read_commitSerialize_outside hsize hk, fun he => absurd rfl he, by simp⟩

/-! ## Round trips -/

/-- Two places that hold the same bytes read alike. -/
theorem read_eq_of_holds {m m' : Memory} {i i' k : Nat} {bs : List Byte} (h : Holds m i bs) (h' : Holds m' i' bs)
    (hk : k < bs.length) : Memory.read m (i + k) = Memory.read m' (i' + k) := (h k hk).trans (h' k hk).symm

/-- A serialized chunk at IN_POS, inside IN_LEN, is a framed chunk with its own crc (R140, R160). -/
theorem FramedAt.of_serialize {s : State} {len tag : Word} {data : List Byte} (hcap : s.inLen.toNat ≤ s.caps.ibuf)
    (hfits : s.inPos.toNat + 12 + len.toNat ≤ s.inLen.toNat) (hsize : data.length = len.toNat)
    (hheld : Holds s.ibuf s.inPos.toNat (serialize tag len data)) : FramedAt s len tag data (chunkCrc tag data) :=
  ⟨hcap, hfits, hsize, hheld⟩

/-- Settles O28: the emitted bytes frame a chunk at IN_POS whose crc is its own. -/
theorem serializeThenParseRoundTrips : Obligations.SerializeThenParseRoundTrips := by
  intro s t u h he hcap hfits hcopy
  obtain ⟨-, -, ha, data, hsize, hdata, rfl⟩ := execChunkSerialize_success h he
  have hheld : Holds u.ibuf u.inPos.toNat (serialize s.tag s.length data) :=
    holds_congr (fun k hk => (hcopy k (by rwa [serialize_length, hsize] at hk)).symm) (s.holds_commitSerialize data)
  have hf := FramedAt.of_serialize hcap hfits hsize hheld
  refine ⟨_, execChunkParse_of_match hf ((tagAlpha_iff _).1 ha), rfl, rfl, rfl, rfl, rfl, hf.toNat_end, fun k hk => ?_⟩
  have hread := read_eq_of_holds (holds_writeRange u.dbuf 0 data) hdata (hsize.symm ▸ hk)
  rwa [Nat.zero_add] at hread

/-- Settles O29: the chunk parsed was framed with its own crc, so its bytes are the serialized ones. -/
theorem parseThenSerializeRoundTrips : Obligations.ParseThenSerializeRoundTrips := by
  intro s t u h he htag hlength hcopy hlen hroom
  obtain ⟨len, tag, data, hf, ha, rfl⟩ := execChunkParse_success h he
  change u.tag = tag at htag
  change u.length = len at hlength
  subst htag hlength
  have hdata : Holds u.dbuf 0 data := by
    refine holds_congr (fun k hk => ?_) (holds_writeRange s.dbuf 0 data)
    rw [Nat.zero_add]
    exact (hcopy k (hf.data_length ▸ hk)).symm
  refine ⟨_, execChunkSerialize_of_ok hlen ha hroom hf.data_length hdata, rfl, fun k hk => ?_⟩
  exact read_eq_of_holds (u.holds_commitSerialize data) hf.holds (by rwa [serialize_length, hf.data_length])

/-! ## Sequences of chunks -/

/-- A successful CHUNK_SERIALIZE of the chunk `c` appends its wire form at OUT_LEN and changes no other byte of OBUF. -/
theorem execChunkSerialize_appends {s t : State} {c : Word × List Byte} (hcaps : s.caps.Legal) (htag : s.tag = c.1)
    (hsize : c.2.length = s.length.toNat) (hdata : Holds s.dbuf 0 c.2) (h : execChunkSerialize s = .next t)
    (he : t.errCode = .success) :
    Holds t.obuf s.outLen.toNat (wireChunk c) ∧ t.outLen.toNat = s.outLen.toNat + (wireChunk c).length ∧
      ∀ k, k < s.outLen.toNat ∨ s.outLen.toNat + (wireChunk c).length ≤ k →
        Memory.read t.obuf k = Memory.read s.obuf k := by
  obtain ⟨tag, data⟩ := c
  obtain ⟨-, hroom, -, data', hsize', hdata', rfl⟩ := execChunkSerialize_success h he
  obtain rfl : data = data' := holds_unique (hsize.trans hsize'.symm) hdata hdata'
  subst htag
  rw [wireChunk_eq_serialize hsize, serialize_length]
  refine ⟨s.holds_commitSerialize data, ?_, fun k hk => State.read_commitSerialize_outside hsize (by omega)⟩
  rw [State.complete_outLen, State.toNat_commitSerialize_outLen hcaps hroom]
  omega

/-- Chunks serialized one after another stand as their concatenation, and nothing else in OBUF changes (R163). -/
theorem Serialized.appends {s v : State} {cs : List (Word × List Byte)} (h : Serialized s cs v) :
    Holds v.obuf s.outLen.toNat (cs.flatMap wireChunk) ∧
      v.outLen.toNat = s.outLen.toNat + (cs.flatMap wireChunk).length ∧
      ∀ k, k < s.outLen.toNat ∨ s.outLen.toNat + (cs.flatMap wireChunk).length ≤ k →
        Memory.read v.obuf k = Memory.read s.obuf k := by
  induction h with
  | nil s => exact ⟨fun k hk => absurd hk (Nat.not_lt_zero k), rfl, fun _ _ => rfl⟩
  | @cons s u t v c cs hcaps hout hobuf htag hsize hdata hexec he _ ih =>
    obtain ⟨hfirst, hend, hframe⟩ := execChunkSerialize_appends hcaps htag hsize hdata hexec he
    obtain ⟨hrest, hlast, houtside⟩ := ih
    rw [hout] at hfirst hend hframe
    rw [hend] at hrest hlast houtside
    rw [List.flatMap_cons, List.length_append]
    refine ⟨holds_append.2 ⟨holds_congr (fun k hk => (houtside _ (by omega)).symm) hfirst, hrest⟩, by omega,
      fun k hk => ?_⟩
    rw [houtside k (by omega), hframe k (by omega), hobuf]

/-- The state with a chunk put into the chunk registers and DBUF. -/
def State.loadChunk (s : State) (c : Word × List Byte) : State :=
  { s with tag := c.1, length := BitVec.ofNat 32 c.2.length, dbuf := Memory.writeRange s.dbuf 0 c.2 }

/-- Chunks of letters that fit DBUF can be serialized one after another where OBUF has room for them all (R163). -/
theorem exists_serialized {cs : List (Word × List Byte)} {s : State} (hcaps : s.caps.Legal)
    (hcs : ∀ c ∈ cs, LetterTag c.1 ∧ c.2.length ≤ s.caps.dbuf)
    (hroom : s.outLen.toNat + (cs.flatMap wireChunk).length ≤ s.caps.obuf) : ∃ v, Serialized s cs v := by
  induction cs generalizing s with
  | nil => exact ⟨s, .nil s⟩
  | cons c cs ih =>
    obtain ⟨ht, hdbuf⟩ := hcs c List.mem_cons_self
    rw [List.flatMap_cons, List.length_append] at hroom
    have hsize : c.2.length = (s.loadChunk c).length.toNat := by
      obtain ⟨-, -, hfits, hobuf⟩ := hcaps
      change c.2.length = (BitVec.ofNat 32 c.2.length).toNat
      rw [BitVec.toNat_ofNat, Nat.mod_eq_of_lt (by omega)]
    have hdata : Holds (s.loadChunk c).dbuf 0 c.2 := holds_writeRange _ _ _
    have hfits : (s.loadChunk c).outLen.toNat + 12 + (s.loadChunk c).length.toNat ≤ (s.loadChunk c).caps.obuf := by
      rw [← hsize]
      rw [wireChunk_length] at hroom
      change s.outLen.toNat + 12 + c.2.length ≤ s.caps.obuf
      omega
    have hexec := execChunkSerialize_of_ok (s := s.loadChunk c) (hsize ▸ hdbuf) ((tagAlpha_iff _).2 ht) hfits hsize
      hdata
    obtain ⟨-, hend, -⟩ := execChunkSerialize_appends (s := s.loadChunk c) hcaps rfl hsize hdata hexec rfl
    obtain ⟨v, hv⟩ := ih (s := ((s.loadChunk c).commitSerialize c.2).complete) hcaps
      (fun d hd => hcs d (List.mem_cons_of_mem c hd)) (by rw [hend, Nat.add_assoc]; exact hroom)
    exact ⟨v, .cons (u := s.loadChunk c) hcaps rfl (fun _ => rfl) rfl hsize hdata hexec rfl hv⟩

/-- Settles O30: by induction over the run, and over the chunks. -/
theorem serializedChunksConcatenate : Obligations.SerializedChunksConcatenate :=
  ⟨fun _ _ _ h => h.appends, fun _ _ hcaps hcs hroom => exists_serialized hcaps hcs hroom⟩

/-- A chunk's wire form at IN_POS, inside IN_LEN, is a framed chunk with its own crc (R140). -/
theorem FramedAt.of_wireChunk {s : State} {c : Word × List Byte} (hcap : s.inLen.toNat ≤ s.caps.ibuf)
    (hfits : s.inPos.toNat + (wireChunk c).length ≤ s.inLen.toNat) (hheld : Holds s.ibuf s.inPos.toNat (wireChunk c)) :
    (BitVec.ofNat 32 c.2.length).toNat = c.2.length ∧
      FramedAt s (BitVec.ofNat 32 c.2.length) c.1 c.2 (chunkCrc c.1 c.2) := by
  have hbound := s.inLen.isLt
  rw [wireChunk_length] at hfits
  have hsize : (BitVec.ofNat 32 c.2.length).toNat = c.2.length := by
    rw [BitVec.toNat_ofNat, Nat.mod_eq_of_lt (by omega)]
  exact ⟨hsize, hcap, by omega, hsize.symm, hheld⟩

/-- The chunk registers and DBUF hold the chunk `c`, and CHUNK_VALID says so. -/
def HoldsChunk (s : State) (c : Word × List Byte) : Prop :=
  s.tag = c.1 ∧ s.length.toNat = c.2.length ∧ Holds s.dbuf 0 c.2 ∧ s.chunkValid = true

/-- CHUNK_PARSE of a chunk's wire form at IN_POS succeeds, takes the chunk, and moves past it (R152). -/
theorem execChunkParse_of_wireChunk {s : State} {c : Word × List Byte} (ht : LetterTag c.1)
    (hcap : s.inLen.toNat ≤ s.caps.ibuf) (hfits : s.inPos.toNat + (wireChunk c).length ≤ s.inLen.toNat)
    (hheld : Holds s.ibuf s.inPos.toNat (wireChunk c)) :
    ∃ t, execChunkParse s = .next t ∧ HoldsChunk t c ∧ t.inPos.toNat = s.inPos.toNat + (wireChunk c).length ∧
      t.inLen = s.inLen ∧ t.caps = s.caps ∧ t.ibuf = s.ibuf ∧ t.errSticky = s.errSticky := by
  obtain ⟨hsize, hf⟩ := FramedAt.of_wireChunk hcap hfits hheld
  refine ⟨_, execChunkParse_of_match hf ht, ⟨rfl, hsize, holds_writeRange _ _ _, rfl⟩, ?_, rfl, rfl, rfl, rfl⟩
  rw [wireChunk_length, ← Nat.add_assoc]
  exact hf.toNat_end.trans (by rw [hsize])

/-- Settles O31: by induction over the chunks; the last one parsed is the one the registers hold. -/
theorem streamOfChunksParses : Obligations.StreamOfChunksParses := by
  intro cs
  induction cs with
  | nil => exact fun s _ _ hend _ => ⟨s, rfl, BitVec.eq_of_toNat_eq hend.symm, rfl, rfl, by simp⟩
  | cons c cs ih =>
    intro s hcs hcap hend hheld
    rw [List.flatMap_cons] at hheld hend
    rw [List.length_append] at hend
    obtain ⟨hfirst, hrest⟩ := holds_append.1 hheld
    obtain ⟨t, hexec, hchunk, hpos, hlen, hcaps, hibuf, hsticky⟩ :=
      execChunkParse_of_wireChunk (hcs c List.mem_cons_self) hcap (by omega) hfirst
    obtain ⟨u, hu, hupos, hulen, husticky, hlast⟩ := ih t (fun d hd => hcs d (List.mem_cons_of_mem c hd))
      (by rwa [hlen, hcaps]) (by rw [hlen, hpos]; omega) (by rwa [hibuf, hpos])
    refine ⟨u, (execAll_cons (i := .chunkParse) hexec).trans hu, hupos, hulen.trans hlen, husticky.trans hsticky, ?_⟩
    cases cs with
    | nil => cases hu; rintro _ ⟨⟩; exact hchunk
    | cons d cs => rwa [List.getLast?_cons_cons]

/-! ## One corrupted byte -/

/-- A copy of held bytes with another byte at one place holds them with that byte there. -/
theorem holds_set {m m' : Memory} {i i' j : Nat} {bs : List Byte} {b : Byte} (h : Holds m i bs)
    (hb : Memory.read m' (i' + j) = some b)
    (hrest : ∀ k, k < bs.length → k ≠ j → Memory.read m' (i' + k) = Memory.read m (i + k)) :
    Holds m' i' (bs.set j b) := by
  intro k hk
  rw [List.length_set] at hk
  rw [List.getElem_set]
  split
  next hjk => rw [← hjk, hb]
  next hjk => rw [hrest k hk (Ne.symm hjk), h k hk]

/-- One changed byte of a sequence changes its crc (R154). -/
theorem crc32_set_ne {bs : List Byte} {j : Nat} {b : Byte} (h : bs.set j b ≠ bs) : crc32 bs ≠ crc32 (bs.set j b) := by
  rcases Nat.lt_or_ge j bs.length with hj | hj
  · have hb : bs[j] ≠ b := fun e => h (by rw [← e, List.set_getElem_self])
    have hne := oneChangedByteChangesTheCrc (bs.take j) (bs.drop (j + 1)) bs[j] b hb
    rwa [← List.drop_eq_getElem_cons hj, List.take_append_drop,
      show bs.take j ++ b :: bs.drop (j + 1) = bs.set j b by rw [List.set_eq_take_append_cons_drop, if_pos hj]] at hne
  · exact absurd (List.set_eq_of_length_le hj) h

/-- A tag's four bytes are letters where each byte listed is. -/
theorem letterTag_iff_forall_mem (t : Word) : LetterTag t ↔ ∀ b ∈ be32bytes t, IsLetter b := by
  simp [LetterTag, be32bytes, tagByte0, tagByte1, tagByte2, tagByte3]

/-- A byte put into a tag of letters leaves letters where it is one or falls past the tag. -/
theorem letterTag_of_set {tag tag' : Word} {k : Nat} {b : Byte} (ht : LetterTag tag)
    (h : be32bytes tag' = (be32bytes tag).set k b) (hb : 4 ≤ k ∨ IsLetter b) : LetterTag tag' := by
  rcases hb with hk | hb
  · rw [List.set_eq_of_length_le hk] at h
    rwa [be32bytes_injective h]
  · rw [letterTag_iff_forall_mem] at ht ⊢
    intro c hc
    rcases List.mem_or_eq_of_mem_set (h ▸ hc) with hc | rfl
    · exact ht c hc
    · exact hb

/-- A byte put into a tag is one of its bytes. -/
theorem isLetter_of_set {tag tag' : Word} {k : Nat} {b : Byte} (ht : LetterTag tag')
    (h : be32bytes tag' = (be32bytes tag).set k b) (hk : k < 4) : IsLetter b :=
  (letterTag_iff_forall_mem tag').1 ht b (h ▸ List.mem_set hk b)

/-- A byte put into a tag followed by data leaves a tag, with the byte in its place if it falls there, followed by as
much data. -/
theorem exists_set_tag_data (tag : Word) (data : List Byte) (k : Nat) (b : Byte) :
    ∃ tag' data', (be32bytes tag ++ data).set k b = be32bytes tag' ++ data' ∧
      be32bytes tag' = (be32bytes tag).set k b ∧ data'.length = data.length := by
  rw [List.set_append]
  split
  next hk =>
    obtain ⟨tag', htag'⟩ := be32bytes_of_length (bs := (be32bytes tag).set k b) (by simp)
    exact ⟨tag', data, by rw [htag'], htag'.symm, rfl⟩
  next hk =>
    exact ⟨tag, data.set (k - 4) b, rfl, (List.set_eq_of_length_le (Nat.not_lt.1 hk)).symm, List.length_set⟩

/-- A byte that corrupts a serialized chunk past its length field leaves a framed chunk of the same length, whose type
is the old one with the byte in its place, if it falls there, and whose crc is not its own (R154). -/
theorem FramedAt.of_corrupted {s : State} {len tag : Word} {data : List Byte} {j : Nat} {b : Byte}
    (hcap : s.inLen.toNat ≤ s.caps.ibuf) (hfits : s.inPos.toNat + 12 + len.toNat ≤ s.inLen.toNat)
    (hsize : data.length = len.toNat) (hne : (serialize tag len data).set j b ≠ serialize tag len data)
    (hheld : Holds s.ibuf s.inPos.toNat ((serialize tag len data).set j b)) (hj : 4 ≤ j) :
    ∃ tag' data' rx, FramedAt s len tag' data' rx ∧ be32bytes tag' = (be32bytes tag).set (j - 4) b ∧
      rx ≠ chunkCrc tag' data' := by
  have hserialize : serialize tag len data =
      be32bytes len ++ ((be32bytes tag ++ data) ++ be32bytes (chunkCrc tag data)) := by
    simp only [serialize, List.append_assoc]
  rw [hserialize, List.set_append_right (s := be32bytes len) j b hj, be32bytes_length] at hheld hne
  rw [Ne, List.append_cancel_left_eq] at hne
  rcases Nat.lt_or_ge (j - 4) (be32bytes tag ++ data).length with hbody | hcrc
  · rw [List.set_append_left _ _ hbody] at hheld hne
    rw [List.append_cancel_right_eq] at hne
    have hrx := crc32_set_ne hne
    obtain ⟨tag', data', hset, htag', hdata'⟩ := exists_set_tag_data tag data (j - 4) b
    rw [hset] at hheld hrx
    refine ⟨tag', data', chunkCrc tag data, ⟨hcap, hfits, hdata'.trans hsize, ?_⟩, htag', hrx⟩
    simpa only [List.append_assoc] using hheld
  · rw [List.set_append_right _ _ hcrc] at hheld hne
    rw [List.append_cancel_left_eq] at hne
    obtain ⟨rx, hrx⟩ := be32bytes_of_length
      (bs := (be32bytes (chunkCrc tag data)).set (j - 4 - (be32bytes tag ++ data).length) b) (by simp)
    rw [hrx] at hheld hne
    refine ⟨tag, data, rx, ⟨hcap, hfits, hsize, ?_⟩, ?_, fun e => hne (congrArg be32bytes e)⟩
    · simpa only [List.append_assoc] using hheld
    · rw [List.set_eq_of_length_le]
      exact (Nat.le_add_right _ _).trans (List.length_append ▸ hcrc)

/-- A byte that corrupts the length field of a serialized chunk leaves the bytes after it. -/
theorem holds_past_length {m : Memory} {i j : Nat} {len tag : Word} {data : List Byte} {b : Byte} (hj : j < 4)
    (h : Holds m i ((serialize tag len data).set j b)) :
    Holds m (i + 4) (be32bytes tag ++ (data ++ be32bytes (chunkCrc tag data))) := by
  rw [serialize, List.append_assoc, List.append_assoc, List.set_append_left (s := be32bytes len) j b hj] at h
  have hrest := (holds_append.1 h).2
  rwa [List.length_set] at hrest

/-- A length word that frames fewer bytes than stand after the type frames a chunk of that type (R140). -/
theorem exists_framedAt_of_shorter {s : State} {len tag : Word} {rest : List Byte}
    (hcap : s.inLen.toNat ≤ s.caps.ibuf) (hfits : s.inPos.toNat + 12 + len.toNat ≤ s.inLen.toNat)
    (hlen : Holds s.ibuf s.inPos.toNat (be32bytes len))
    (hrest : Holds s.ibuf (s.inPos.toNat + 4) (be32bytes tag ++ rest)) (hsize : len.toNat + 4 ≤ rest.length) :
    ∃ data rx, FramedAt s len tag data rx := by
  obtain ⟨rx, hrx⟩ := be32bytes_of_length (bs := (rest.drop len.toNat).take 4) (by simp; omega)
  have hsplit : rest = rest.take len.toNat ++ be32bytes rx ++ rest.drop (len.toNat + 4) := by
    rw [← hrx, ← List.take_add, List.take_append_drop]
  have hheld := holds_append.2 ⟨hlen, hrest⟩
  rw [hsplit] at hheld
  simp only [← List.append_assoc] at hheld
  exact ⟨rest.take len.toNat, rx, hcap, hfits, List.length_take_of_le (by omega), (holds_append.1 hheld).1⟩

/-- What CHUNK_PARSE does with a framed chunk of letters: it compares the two crcs it leaves in the diagnostic
registers, and moves past the chunk where they agree (R151 step 5, R152). -/
theorem execChunkParse_outcome_of_framed {s : State} {len tag rx : Word} {data : List Byte}
    (h : FramedAt s len tag data rx) (ht : LetterTag tag) :
    ∃ t, execChunkParse s = .next t ∧
      ((t.crcRx ≠ t.crcCalc ∧ t.errCode = .invalidChecksum) ∨
        (t.crcRx = t.crcCalc ∧ t.errCode = .success ∧ t.inPos.toNat = s.inPos.toNat + 12 + len.toNat)) := by
  by_cases hrx : rx = chunkCrc tag data
  · subst hrx
    exact ⟨_, execChunkParse_of_match h ht, .inr ⟨rfl, rfl, h.toNat_end⟩⟩
  · exact ⟨_, execChunkParse_of_mismatch h ht hrx, .inl ⟨hrx, rfl⟩⟩

/-- Settles O32: a corrupted type, data or crc by `FramedAt.of_corrupted`, a corrupted length by what its word frames,
past IN_LEN or short of it. -/
theorem oneCorruptedByteIsReported : Obligations.OneCorruptedByteIsReported := by
  intro s t u j b h he hzero hinLen hcap hj hb hne hcopy
  obtain ⟨-, -, ha, data, hsize, -, rfl⟩ := execChunkSerialize_success h he
  have ht : LetterTag s.tag := (tagAlpha_iff _).1 ha
  have hpos : u.inPos.toNat = 0 := by rw [hzero]; rfl
  have hlength : (serialize s.tag s.length data).length = 12 + s.length.toNat := by rw [serialize_length, hsize]
  have hemitted := s.holds_commitSerialize data
  have hheld : Holds u.ibuf u.inPos.toNat ((serialize s.tag s.length data).set j b) := by
    refine holds_set hemitted ?_ fun k hk hkj => ?_ <;> rw [hpos, Nat.zero_add]
    · exact hb
    · exact hcopy k (hlength ▸ hk) hkj
  have hchanged : (serialize s.tag s.length data).set j b ≠ serialize s.tag s.length data := by
    intro e
    have hread := read_eq_of_holds hemitted (e ▸ hheld) (hlength.symm ▸ hj)
    rw [hpos, Nat.zero_add, hb] at hread
    exact hne hread
  have hcorrupted := FramedAt.of_corrupted hcap (by omega) hsize hchanged hheld
  refine ⟨fun hlo hhi hletter => ?_, fun hfield => ?_, fun len hlo hlen hgt => ?_, fun len hlo hlen hlt => ?_⟩
  · obtain ⟨tag, _, _, hf, htag, -⟩ := hcorrupted hlo
    exact chunkTypeIsTestedBeforeDataIsRead u s.length tag hf.inLen_le hf.fits hf.holds_length_type
      fun ht' => hletter (isLetter_of_set ht' htag (by omega))
  · obtain ⟨tag, _, _, hf, htag, hcrc⟩ := hcorrupted (hfield.elim (by omega) And.left)
    exact ⟨_, execChunkParse_of_mismatch hf (letterTag_of_set ht htag (hfield.imp (by omega) And.right)) hcrc, rfl⟩
  · exact execChunkParse_of_length_gt hcap (by omega) (hpos.symm ▸ hlen) (by omega)
  · obtain ⟨_, _, hf⟩ := exists_framedAt_of_shorter hcap (by omega) (hpos.symm ▸ hlen) (holds_past_length hlo hheld)
      (by rw [List.length_append, be32bytes_length]; omega)
    have houtcome := execChunkParse_outcome_of_framed hf ht
    rwa [hpos, Nat.zero_add] at houtcome

end Sys2Proof.Machine

/-! How commands end (60_exceptions.md): the checksum test (O26), what a failing command changes and a succeeding one
leaves (O36, O37), the codes each command can end with (O38), and that every command ends (O43). -/

namespace Sys2Proof.Machine

/-! ## The checksum test -/

/-- Settles O26: a success is a commit, whose chunk was framed with its own crc; a framed mismatch ends in the raise of
step 5, which leaves CRC alone. -/
theorem checksumMismatchIsAlwaysReported : Obligations.ChecksumMismatchIsAlwaysReported := by
  refine ⟨fun s t h he => ?_, fun s t len tag rx data hf ht hrx h => ?_⟩
  · obtain ⟨len, tag, data, hf, ha, rfl⟩ := execChunkParse_success h he
    exact ⟨len, tag, data, _, hf, (tagAlpha_iff tag).1 ha, rfl, rfl⟩
  · cases (execChunkParse_of_mismatch hf ht hrx).symm.trans h
    exact ⟨rfl, rfl, rfl⟩

/-- A CHUNK_PARSE that ends in InvalidChecksum has framed a chunk, and leaves its two crcs in the diagnostic registers
(R151 step 5). -/
theorem execChunkParse_invalidChecksum {s t : State} (h : execChunkParse s = .next t)
    (he : t.errCode = .invalidChecksum) :
    ∃ len tag data rx, FramedAt s len tag data rx ∧ t.crcRx = rx ∧ t.crcCalc = chunkCrc tag data := by
  rcases execChunkParse_cases h with ⟨-, rfl⟩ | ⟨-, -, rfl⟩ | ⟨_, -, -, rfl⟩ | ⟨_, -, -, rfl⟩ |
    ⟨len, tag, data, rx, hf, -, ⟨-, rfl⟩ | ⟨-, rfl⟩⟩
  iterate 4 cases he
  · exact ⟨len, tag, data, rx, hf, rfl, rfl⟩
  · cases he

/-! ## Failing and succeeding commands -/

/-- Settles O36: of the effects of a command only the raise and the checksum mismatch end with an error code; what the
mismatch leaves in the diagnostic registers is `execChunkParse_invalidChecksum`. -/
theorem failingCommandChangesOnlyStatus : Obligations.FailingCommandChangesOnlyStatus := by
  intro i s t h he
  refine ⟨?_, fun hi => ?_, fun hi hcode => ?_⟩
  · cases exec_effect h with
    | fails => rfl
    | mismatches => rfl
    | _ => exact absurd rfl he
  · cases exec_effect h with
    | fails => exact ⟨rfl, rfl⟩
    | mismatches => exact absurd ⟨rfl, rfl⟩ hi
    | _ => exact absurd rfl he
  · subst hi
    exact execChunkParse_invalidChecksum h hcode

/-- A command that raises no error leaves ERR_STICKY alone (R183). -/
theorem exec_errSticky_of_success {i : Instr} {s t : State} (h : exec i s = .next t) (he : t.errCode = .success) :
    t.errSticky = s.errSticky := by
  cases exec_effect h with
  | fails hne => exact absurd he hne
  | mismatches => cases he
  | _ => rfl

/-- No register write changes ERRCODE (R57). -/
@[simp] theorem State.writeReg_errCode (s : State) (r : Reg) (v : Word) (d : Nat) :
    (s.writeReg r v d).errCode = s.errCode := by
  cases r with
  | status => rw [State.writeReg_status]
  | _ => rfl

/-- No buffer write changes ERRCODE (R58). -/
@[simp] theorem State.pokeByte_errCode (s : State) (b : Buf) (i : Nat) (v : Byte) :
    (s.pokeByte b i v).errCode = s.errCode := by
  cases b <;> rfl

/-- Settles O37: by the effects of a command, and by those of a step, of which only reset and a command change
ERRCODE. -/
theorem succeedingCommandKeepsSticky : Obligations.SucceedingCommandKeepsSticky := by
  refine ⟨fun i s t => exec_errSticky_of_success, fun s t h hline hdue => ?_⟩
  cases step_effect h with
  | reset hr => exact absurd (hline.symm.trans hr) Bool.false_ne_true
  | command hw => exact absurd hw (hdue _)
  | quiet => rfl
  | writesReg => simp
  | writesByte => simp

/-! ## The codes of each command -/

/-- TAG_CHECK (R126). -/
theorem execTagCheck_cases {s t : State} (h : execTagCheck s = .next t) :
    t = s.complete ∨ t = s.raise .invalidBytes := by
  rw [execTagCheck] at h
  split at h <;> cases h
  · exact .inl rfl
  · exact .inr rfl

/-- TAG_CHECK_STR (R128). -/
theorem execTagCheckStr_cases {n : Byte} {s t : State} (h : execTagCheckStr n s = .next t) :
    t = s.raise .invalidLength ∨ t = s.complete ∨ t = s.raise .invalidCharacter := by
  rw [execTagCheckStr] at h
  split at h
  · cases h; exact .inl rfl
  · split at h <;> cases h
    · exact .inr (.inl rfl)
    · exact .inr (.inr rfl)

/-- The code a command ends with is one of its own (R181). -/
theorem exec_errCode_mem_allowedCodes {i : Instr} {s t : State} (h : exec i s = .next t) :
    t.errCode ∈ allowedCodes i := by
  cases i with
  | crcInit => cases h; simp [allowedCodes]
  | crcByte b => cases h; simp [allowedCodes]
  | crcTag => cases h; simp [allowedCodes]
  | crcData => rcases execCrcData_cases h with ⟨-, rfl⟩ | ⟨-, _, -, rfl⟩ <;> simp [allowedCodes]
  | tagCheck => rcases execTagCheck_cases h with rfl | rfl <;> simp [allowedCodes]
  | tagCheckStr n => rcases execTagCheckStr_cases h with rfl | rfl | rfl <;> simp [allowedCodes]
  | tagCmp => cases h; simp [allowedCodes]
  | chunkNew =>
    rcases execChunkNew_cases h with ⟨-, rfl⟩ | ⟨-, -, rfl⟩ | ⟨-, -, _, -, rfl⟩ <;> simp [allowedCodes]
  | chunkParse =>
    rcases execChunkParse_cases h with ⟨-, rfl⟩ | ⟨-, -, rfl⟩ | ⟨_, -, -, rfl⟩ | ⟨_, -, -, rfl⟩ |
      ⟨_, _, _, _, -, -, ⟨-, rfl⟩ | ⟨-, rfl⟩⟩ <;> simp [allowedCodes]
  | chunkSerialize =>
    rcases execChunkSerialize_cases h with ⟨-, rfl⟩ | ⟨-, rfl⟩ | ⟨-, rfl⟩ | ⟨-, -, -, _, -, rfl⟩ <;>
      simp [allowedCodes]
  | illegal w => cases h; simp [allowedCodes]

/-- Settles O38: command by command; the numbers are the definition's. -/
theorem eachCommandReportsItsOwnCodes : Obligations.EachCommandReportsItsOwnCodes :=
  ⟨fun _ _ _ => exec_errCode_mem_allowedCodes, rfl⟩

/-! ## Every command ends -/

/-- A step while the command has turns left takes one of them (R61). -/
theorem exists_step_busy {s : State} {w : Word} {n : Nat} (hr : Released s) (hi : s.inflight = some ⟨w, n + 1⟩) :
    ∃ t, step s = .next t ∧ Released t ∧ t.inflight = some ⟨w, n⟩ := by
  rw [step_busy hr hi]
  rcases busyTurn_cases ⟨w, n + 1⟩ s with e | ⟨_, _, -, -, e⟩
  · exact ⟨_, e, hr, rfl⟩
  · exact ⟨_, e, hr, rfl⟩

/-- The step of a due command ends it, or stops at an unwritten byte (R39, R180). -/
theorem step_due_cases {s : State} {w : Word} (hd : Due s w) :
    (∃ t, step s = .next t ∧ t.inflight = none) ∨ ∃ b k, step s = .fault (.unwrittenByte b k) := by
  rw [step_due hd, engineTurn_eq_mapNext]
  rcases commandsStopOnlyAtUnwrittenBytes (decode w) s with ⟨u, hu⟩ | ⟨b, k, hu, -⟩ <;> rw [hu]
  · exact .inl ⟨u.finish, rfl, rfl⟩
  · exact .inr ⟨b, k, rfl⟩

/-- Settles O43: by induction on the turns the command has left, each of which one step takes; the last step is the
command's own. -/
theorem everyCommandEnds : Obligations.EveryCommandEnds := by
  intro s w d hr hi
  induction d generalizing s with
  | zero =>
    rcases step_due_cases ⟨hr, hi⟩ with ⟨t, hstep, ht⟩ | ⟨b, k, hstep⟩
    · exact .inl ⟨t, runSteps_next hstep 0, ht⟩
    · exact .inr ⟨b, k, runSteps_fault hstep 0⟩
  | succ d ih =>
    obtain ⟨t, hstep, hr', hi'⟩ := exists_step_busy hr hi
    rw [runSteps_next hstep]
    exact ih t hr' hi'

end Sys2Proof.Machine

/-! Reset (70_reset_and_hazards.md): what reset leaves behind (O50), which accesses are refused (O51), and the state the
first access after reset finds (O52). -/

namespace Sys2Proof.Machine

/-! ## Steps with reset applied and with reset released -/

/-- A register write has no part in reset (R57, R200). -/
@[simp] theorem State.writeReg_released (s : State) (r : Reg) (v : Word) (d : Nat) :
    Released (s.writeReg r v d) ↔ Released s := by
  cases r with
  | status => rw [State.writeReg_status]; rfl
  | _ => rfl

/-- A byte write has no part in reset (R58, R200). -/
@[simp] theorem State.pokeByte_released (s : State) (b : Buf) (i : Nat) (v : Byte) :
    Released (s.pokeByte b i v) ↔ Released s := by
  rw [State.pokeByte_frame]
  rfl

/-- A performed access neither applies reset nor marks an access to refuse (R200, R201). -/
theorem performAccess_released {a : Access} {d : Nat} {s t : State} (h : performAccess a d s = .next t)
    (hs : Released s) : Released t := by
  rcases performAccess_cases h with ⟨r, rfl⟩ | ⟨off, w, v, r, -, -, rfl⟩ | ⟨off, w, v, b, i, -, -, -, rfl⟩
  · exact hs
  · exact (s.writeReg_released r v d).2 hs
  · exact (s.pokeByte_released b i (v.setWidth 8)).2 hs

/-- A step that answers a next state applies reset again where reset is applied, and otherwise leaves reset released
and no access to refuse (R200, R201). -/
theorem step_inReset_or_released {s t : State} (h : step s = .next t) :
    (s.resetLine = true ∧ s.madeInReset = none ∧ t = s.applyReset) ∨ (Released s ∧ Released t) := by
  rcases step_cases h with hreset | ⟨w, u, ⟨hr, -⟩, hu, rfl⟩ | ⟨hr, c, -, -, hbusy⟩ | ⟨hr, -, -, rfl⟩ |
    ⟨a, d, rest, ⟨hr, -, -⟩, hperf⟩
  · exact .inl hreset
  · obtain ⟨-, -, -, -, -, hline, -, -, hmade⟩ := exec_frame hu
    exact .inr ⟨hr, hline.trans hr.1, hmade.trans hr.2⟩
  · rcases busyTurn_cases c s with e | ⟨_, _, -, -, e⟩ <;> rw [e] at hbusy <;> cases hbusy <;> exact .inr ⟨hr, hr⟩
  · exact .inr ⟨hr, hr⟩
  · exact .inr ⟨hr, performAccess_released hperf hr⟩

/-! ## No command outlasts reset -/

/-- No command is in progress, and none waits at the port (R200). -/
def NoCommand (s : State) : Prop := s.inflight = none ∧ ∀ q ∈ s.port, q.access.isCommand = false

/-- A step starts no command where none waits, and puts none at the port (R23, R64). -/
theorem NoCommand.step {s t : State} (hs : NoCommand s) (h : Machine.step s = .next t) : NoCommand t := by
  obtain ⟨hidle, hport⟩ := hs
  refine ⟨?_, fun q hq => hport q (step_port_mem h hq)⟩
  by_contra hne
  obtain ⟨c, hc⟩ := Option.ne_none_iff_exists'.1 hne
  obtain ⟨rest, -, -, hhead⟩ := step_starts h hidle hc
  have hnot : Access.isCommand (.write 0x00 4 c.word) = false :=
    hport ⟨.write 0x00 4 c.word, c.delay⟩ (hhead ▸ List.mem_cons_self)
  exact absurd (isCommand_iff.2 ⟨c.word, rfl⟩) (Bool.eq_false_iff.1 hnot)

/-- However long the block runs on, no command starts (R200). -/
theorem NoCommand.reaches {s t : State} (hs : NoCommand s) (h : Reaches s t) : NoCommand t := by
  induction h with
  | refl => exact hs
  | step _ hstep ih => exact ih.step hstep

/-- No write to CMD waits where no command does (R23). -/
theorem NoCommand.write_cmd_not_mem {s : State} (hs : NoCommand s) (v : Word) (d : Nat) :
    ⟨.write 0x00 4 v, d⟩ ∉ s.port := by
  intro hmem
  exact absurd (isCommand_iff.2 ⟨v, rfl⟩) (Bool.eq_false_iff.1 (hs.2 _ hmem))

/-! ## The state reset leaves -/

/-- The state reset leaves, with the reset input at a given level: applied still, or released again (R200). -/
def State.afterReset (s : State) (line : Bool) : State := { s.applyReset with resetLine := line }

/-- Reset applied by the host, reset pulsed, and a step taken in reset leave the same state but for the level of the
input (R200; log 7). -/
theorem exists_eq_afterReset {s t : State}
    (h : t = s.driveReset true ∨ t = (s.driveReset true).driveReset false ∨ (s.resetLine = true ∧ step s = .next t)) :
    ∃ line, t = s.afterReset line := by
  rcases h with rfl | rfl | ⟨hline, hstep⟩
  · exact ⟨true, rfl⟩
  · exact ⟨false, rfl⟩
  · rcases step_inReset_or_released hstep with ⟨-, -, rfl⟩ | ⟨hr, -⟩
    · exact ⟨true, rfl⟩
    · exact absurd (hline.symm.trans hr.1) (by decide)

theorem State.afterReset_noCommand (s : State) (line : Bool) : NoCommand (s.afterReset line) :=
  ⟨rfl, fun _ hq => applyReset_port_isCommand hq⟩

/-- Every register but those of the capacities reads its reset value (R36, R42, R200). -/
theorem State.afterReset_readReg (s : State) (line : Bool) {r : Reg} (hi : r ≠ .ibufCap) (hd : r ≠ .dbufCap)
    (ho : r ≠ .obufCap) : (s.afterReset line).readReg r = State.reset.readReg r := by
  cases r with
  | ibufCap => exact absurd rfl hi
  | dbufCap => exact absurd rfl hd
  | obufCap => exact absurd rfl ho
  | _ => rfl

/-- No buffer byte holds a value (R39, R200). -/
theorem State.afterReset_read (s : State) (line : Bool) (b : Buf) (k : Nat) :
    Memory.read ((s.afterReset line).buf b) k = none := by
  cases b <;> rfl

/-! ## The reset state while reset is applied -/

theorem State.resetInv_applyReset (s : State) : s.applyReset.ResetInv := fun _ => s.applyReset_applyReset.symm

theorem State.resetInv_of_released {s : State} (h : s.resetLine = false) : s.ResetInv := fun hline =>
  absurd (h.symm.trans hline) Bool.false_ne_true

/-- A step with reset applied applies it, and one with reset released leaves it released (R200). -/
theorem step_resetInv {s t : State} (h : step s = .next t) : t.ResetInv := by
  rcases step_inReset_or_released h with ⟨-, -, rfl⟩ | ⟨-, hr⟩
  · exact s.resetInv_applyReset
  · exact State.resetInv_of_released hr.1

/-- An access made during reset leaves the block in its reset state but for the mark of its refusal (R201). -/
theorem State.ResetInv.present {s : State} (h : s.ResetInv) (a : Access) (d : Nat) : (s.present a d).ResetInv := by
  cases hline : s.resetLine with
  | false => rw [State.present_released hline]; exact State.resetInv_of_released hline
  | true =>
    rw [State.present_inReset hline]
    intro _
    have hreset : s.applyReset = s := (h hline).symm
    calc { s with madeInReset := s.madeInReset <|> some a }
        = { s.applyReset with madeInReset := s.madeInReset <|> some a } := by rw [hreset]
      _ = State.applyReset { s with madeInReset := s.madeInReset <|> some a } := rfl

/-- No act of the host takes the block out of its reset state while reset is applied (R200). -/
theorem HostActs.resetInv {s t : State} (h : HostActs s t) (hs : s.ResetInv) : t.ResetInv := by
  induction h with
  | none => exact hs
  | present a d _ ih => exact ih.present a d
  | @driveReset u line _ _ =>
    cases line with
    | true => exact u.resetInv_applyReset
    | false => exact State.resetInv_of_released rfl

/-- Settles O50: whichever way reset comes, the state it leaves is `afterReset`; no command is in it or starts from it, by
induction on the run; and each step and each act of the host keeps the reset state while reset is applied. -/
theorem resetRestoresTheResetState : Obligations.ResetRestoresTheResetState := by
  refine ⟨fun s t ht => ?_, fun s hline hmade => ⟨_, step_inReset hmade hline, rfl⟩, ?_⟩
  · obtain ⟨line, rfl⟩ := exists_eq_afterReset ht
    have hquiet := s.afterReset_noCommand line
    exact ⟨rfl, hquiet.write_cmd_not_mem, fun u hu => (hquiet.reaches hu).1, rfl,
      fun r hi hd ho => s.afterReset_readReg line hi hd ho, s.afterReset_read line⟩
  · rintro s t (hstep | hacts) hs
    · exact step_resetInv hstep
    · exact hacts.resetInv hs

/-! ## Refusals -/

/-- The host port refuses no access (R54 to R58). -/
theorem performAccess_ne_refused (a : Access) (d : Nat) (s : State) (e : Refusal) :
    performAccess a d s ≠ .refused e := by
  cases a with
  | read off w =>
    simp only [performAccess]
    split
    · simp
    · simp
    · split <;> simp
  | write off w v => simp only [performAccess]; split <;> simp

/-- A step with nothing to do changes nothing (R195). -/
theorem step_idle {s : State} (hr : Released s) (hi : s.inflight = none) (hp : s.port = []) : step s = .next s := by
  simp [step, hostTurn, hr.1, hr.2, hi, hp]

/-- A step with no access to refuse refuses nothing: reset, a command, a host turn and the port have no refusal
(R201). -/
theorem step_ne_refused {s : State} (hmade : s.madeInReset = none) (e : Refusal) : step s ≠ .refused e := by
  cases hline : s.resetLine with
  | true => simp [step_inReset hmade hline]
  | false =>
    have hr : Released s := ⟨hline, hmade⟩
    cases hi : s.inflight with
    | none =>
      cases hp : s.port with
      | nil => simp [step_idle hr hi hp]
      | cons q rest =>
        rw [step_atPort (a := q.access) (d := q.delay) ⟨hr, hi, hp⟩]
        exact performAccess_ne_refused _ _ _ e
    | some c =>
      obtain ⟨w, n⟩ := c
      cases n with
      | zero => rcases step_due_cases ⟨hr, hi⟩ with ⟨t, hstep, -⟩ | ⟨b, k, hstep⟩ <;> simp [hstep]
      | succ n =>
        obtain ⟨t, hstep, -⟩ := exists_step_busy hr hi
        simp [hstep]

/-- A step refuses where an access made during reset is marked, names that access, and refuses nowhere else (R201). -/
theorem step_refused_iff {s : State} {e : Refusal} :
    step s = .refused e ↔ ∃ a, s.madeInReset = some a ∧ e = .accessDuringReset a := by
  cases hmade : s.madeInReset with
  | none => simpa using step_ne_refused hmade e
  | some a => simp [step_madeInReset hmade, eq_comm]

/-- Settles O51: the access made during reset is marked and the host cannot unmark it; nothing else marks one, and a step
refuses the one that is marked. -/
theorem accessDuringResetIsRefused : Obligations.AccessDuringResetIsRefused := by
  refine ⟨fun s t a d hline hmade hacts => ?_, fun s a d hline => ?_, fun s line => ?_, fun s t hstep => ?_,
    fun s e => step_refused_iff⟩
  · have hmarked : (s.present a d).madeInReset = some a := by simp [State.present_inReset hline, hmade]
    exact step_madeInReset (hacts.madeInReset_eq hmarked)
  · rw [State.present_released hline]
    exact ⟨rfl, rfl⟩
  · cases line <;> rfl
  · rcases step_inReset_or_released hstep with ⟨-, hmade, rfl⟩ | ⟨-, hr⟩
    · exact hmade
    · exact hr.2

/-! ## The first access after reset -/

/-- Settles O52: after the pulse the block is the reset state with the queue that outlasts it, so the head of the queue is
at the port once an access has arrived. -/
theorem firstAccessAfterResetSeesTheResetState : Obligations.FirstAccessAfterResetSeesTheResetState := by
  intro s t hmade ht
  have heq : t = { State.resetWith s.caps with port := s.port.filter Request.outlastsReset } := by
    rw [ht, State.driveReset_true, State.driveReset_false, State.applyReset, hmade]
    rfl
  refine ⟨heq, fun a d q rest hport => ?_⟩
  rw [heq, State.present_released rfl] at hport ⊢
  refine ⟨fun hempty => ?_, step_atPort (a := q.access) (d := q.delay) ⟨⟨rfl, rfl⟩, rfl, hport⟩⟩
  simp only [hempty, List.filter_nil, List.nil_append, List.cons.injEq] at hport
  exact hport.1.symm

end Sys2Proof.Machine
